-- ==== Sys2Proof/Word.lean ====
section
/-!
DEFINITION. The word types of the block: a byte (the unit of the buffers and the width of a command word) and the
order tag's two values (00_scope.md R5 to R8, 30_encoding.md R70, R72).
-/

namespace Sys2Proof

/-- An element of a byte sequence, a character of a string (R6, R10), or a command word (R70). -/
abbrev Byte := BitVec 8

/-- The source's `order : {BigEndian, LittleEndian}` (R72). There is no default and no third value. -/
inductive Order where
  | bigEndian
  | littleEndian
deriving DecidableEq, Repr

end Sys2Proof
end

