-- ==== Sys2Proof/Syntax.lean ====
section
/-!
DEFINITION. The command set: one constructor per row of spec/opcode_table.json, that is one per legal command word
(30_encoding.md R71, R72, R74). A command has no operand list, because its operands are in fixed registers (R76, R79);
the order tag is part of the mnemonic.
-/

namespace Sys2Proof

/-- The nineteen legal command words, in the table's order. -/
inductive Instr where
  /-- HEXENC (R100) -/
  | hexenc
  /-- HEXDEC (R101) -/
  | hexdec
  /-- ENC64.BE (R110) -/
  | enc64Be
  /-- ENC64.LE (R110) -/
  | enc64Le
  /-- DEC64.BE (R111) -/
  | dec64Be
  /-- DEC64.LE (R111) -/
  | dec64Le
  /-- ENC32.BE (R112) -/
  | enc32Be
  /-- ENC32.LE (R112) -/
  | enc32Le
  /-- DEC32.BE (R113) -/
  | dec32Be
  /-- DEC32.LE (R113) -/
  | dec32Le
  /-- SDC32 (R114) -/
  | sdc32
  /-- PARSEADDR (R130) -/
  | parseaddr
  /-- FMTADDR (R131) -/
  | fmtaddr
  /-- ADDR2B (R132) -/
  | addr2b
  /-- B2ADDR (R133) -/
  | b2addr
  /-- PORT2B (R150) -/
  | port2b
  /-- B2PORT (R151) -/
  | b2port
  /-- EP2B (R160) -/
  | ep2b
  /-- B2EP (R161) -/
  | b2ep
deriving DecidableEq, Repr

end Sys2Proof
end

