-- ==== Sys2Proof/WellFormed.lean ====
section
/-!
DEFINITION. Well-formedness. `Instr` carries no operand, so every `Instr` is well formed (30_encoding.md R70: no
immediates, no register numbers, no addressing modes). The raw term that can be ill formed is a command word taken as its
three fields; the five checks below are the five causes of R75.
-/

namespace Sys2Proof

/-- The three fields of format C (R70), before any check. -/
structure Fields where
  rsv : BitVec 2
  ord : BitVec 2
  opc : BitVec 4
deriving DecidableEq, Repr

/-- R72: the four integer commands ENC64, DEC64, ENC32 and DEC32 take an order tag. -/
def takesOrder (opc : BitVec 4) : Bool := opc = 3 || opc = 4 || opc = 5 || opc = 6

/-- The five causes for which a command word is illegal, in the order of R75's table. -/
inductive IllegalCause where
  /-- `RSV != 00` -/
  | reservedBits
  /-- `ORD = 11` -/
  | reservedOrder
  /-- `OPC = 0` -/
  | reservedOpcode
  /-- an order tag on a command that takes none -/
  | unexpectedTag
  /-- no order tag on a command that takes one -/
  | missingTag
deriving DecidableEq, Repr

/-- The first cause of R75's table that makes the fields illegal, if any. -/
def Fields.cause (f : Fields) : Option IllegalCause :=
  if f.rsv ≠ 0 then some .reservedBits
  else if f.ord = 3 then some .reservedOrder
  else if f.opc = 0 then some .reservedOpcode
  else if f.ord ≠ 0 ∧ takesOrder f.opc = false then some .unexpectedTag
  else if f.ord = 0 ∧ takesOrder f.opc = true then some .missingTag
  else none

/-- R70, R72: reserved bits zero, a tag that exists, an operation that exists, and a tag exactly where one is taken. -/
def Fields.wellFormed (f : Fields) : Bool := f.cause = none

/-- Every instruction is well formed: it has no operand to check (R70). -/
def Instr.wellFormed (_ : Instr) : Bool := true

end Sys2Proof
end

