-- ==== Sys2Proof/Decode.lean ====
section
/-!
DEFINITION. The decoder (30_encoding.md R74, R75), total on all 256 command words and rejecting each of the other 237 by
its cause, and after it the encoder, written from the fields of R70, R71 and R72 (not from the decoder's list of words).
-/

namespace Sys2Proof

/-- `RSV`, bits 7:6 of a command word (R70). -/
def rsvField (c : Byte) : BitVec 2 := c.extractLsb' 6 2

/-- `ORD`, bits 5:4 of a command word (R70). -/
def ordField (c : Byte) : BitVec 2 := c.extractLsb' 4 2

/-- `OPC`, bits 3:0 of a command word (R70). -/
def opcField (c : Byte) : BitVec 4 := c.extractLsb' 0 4

/-- A command word cut into its fields (R70). -/
def fieldsOf (c : Byte) : Fields := ⟨rsvField c, ordField c, opcField c⟩

/-- The nineteen legal words of R74: an exact match on the whole byte. -/
def legalWord (c : Byte) : Option Instr :=
  match c.toNat with
  | 0x01 => some .hexenc
  | 0x02 => some .hexdec
  | 0x13 => some .enc64Be
  | 0x23 => some .enc64Le
  | 0x14 => some .dec64Be
  | 0x24 => some .dec64Le
  | 0x15 => some .enc32Be
  | 0x25 => some .enc32Le
  | 0x16 => some .dec32Be
  | 0x26 => some .dec32Le
  | 0x07 => some .sdc32
  | 0x08 => some .parseaddr
  | 0x09 => some .fmtaddr
  | 0x0A => some .addr2b
  | 0x0B => some .b2addr
  | 0x0C => some .port2b
  | 0x0D => some .b2port
  | 0x0E => some .ep2b
  | 0x0F => some .b2ep
  | _ => none

/-- The cause for which a word outside R74's list is illegal (R75's table). Every such word has one of the first four
causes, or lacks its order tag. -/
def causeOf (c : Byte) : IllegalCause := (fieldsOf c).cause.getD .missingTag

/-- Decode a command word (R90 step 1): the instruction, or the cause why there is none. -/
def decode (c : Byte) : Except IllegalCause Instr :=
  match legalWord c with
  | some i => .ok i
  | none => .error (causeOf c)

/-- The operation number of R71. -/
def Instr.opc : Instr → BitVec 4
  | .hexenc => 0x1
  | .hexdec => 0x2
  | .enc64Be | .enc64Le => 0x3
  | .dec64Be | .dec64Le => 0x4
  | .enc32Be | .enc32Le => 0x5
  | .dec32Be | .dec32Le => 0x6
  | .sdc32 => 0x7
  | .parseaddr => 0x8
  | .fmtaddr => 0x9
  | .addr2b => 0xA
  | .b2addr => 0xB
  | .port2b => 0xC
  | .b2port => 0xD
  | .ep2b => 0xE
  | .b2ep => 0xF

/-- The order a mnemonic names: `.BE`, `.LE`, or none (R72, R79). -/
def Instr.order : Instr → Option Order
  | .enc64Be | .dec64Be | .enc32Be | .dec32Be => some .bigEndian
  | .enc64Le | .dec64Le | .enc32Le | .dec32Le => some .littleEndian
  | .hexenc | .hexdec | .sdc32 | .parseaddr | .fmtaddr | .addr2b | .b2addr | .port2b | .b2port | .ep2b | .b2ep => none

/-- The `ORD` bits of an order (R70): `00` none, `01` BigEndian, `10` LittleEndian. -/
def orderBits : Option Order → BitVec 2
  | none => 0b00
  | some .bigEndian => 0b01
  | some .littleEndian => 0b10

/-- The fields of an instruction's word: `RSV` zero (R70), its order tag (R72), its number (R71). -/
def Instr.fields (i : Instr) : Fields := ⟨0, orderBits i.order, i.opc⟩

/-- One command assembles to one byte (R79): the three fields, the reserved bits on top (R70). -/
def encode (i : Instr) : Byte := i.fields.rsv ++ i.fields.ord ++ i.fields.opc

/-- A listing of commands as the bytes written to CMD (R79). -/
def assemble : List Instr → List Byte
  | [] => []
  | i :: is => encode i :: assemble is

/-- The bytes written to CMD read back as a listing; the first illegal byte and its cause if there is one (R75). -/
def disassemble : List Byte → Except IllegalCause (List Instr)
  | [] => .ok []
  | c :: cs =>
    match decode c, disassemble cs with
    | .ok i, .ok is => .ok (i :: is)
    | .ok _, .error e => .error e
    | .error e, _ => .error e

/-- What the decoder reads from the word `w` of a table row of `nbits` bits, the bits above them zero. A command is one
byte (R70), so it is the byte `w` with its bits from `nbits` up cleared. -/
def decodeTableWord (nbits w : Nat) : Option Instr :=
  match decode (BitVec.ofNat 8 (w % 2 ^ nbits)) with
  | .ok i => some i
  | .error _ => none

end Sys2Proof
end

