-- ==== Sys2Proof/Machine/Operands.lean ====
section
/-!
DEFINITION. The operand forms of the commands: byte order (00_scope.md R7 to R9), characters (R10 to R12), decimal text
(R13, R14), the signed reading (R15), and the texts of the hex and IPv4 families (41_hex.md, 43_address.md).
-/

namespace Sys2Proof.Machine

/-! ### Byte order -/

/-- `be_bytes(n, v)`: byte `i` is `v[8(n-1-i)+7 : 8(n-1-i)]`, the most significant byte first (R7). -/
def beBytes {w : Nat} (n : Nat) (v : BitVec w) : List Byte :=
  (List.range n).map fun i => v.extractLsb' (8 * (n - 1 - i)) 8

/-- `le_bytes(n, v)`: byte `i` is `v[8i+7 : 8i]`, the least significant byte first (R8). -/
def leBytes {w : Nat} (n : Nat) (v : BitVec w) : List Byte :=
  (List.range n).map fun i => v.extractLsb' (8 * i) 8

/-- `be_value(bs)` as a natural number: `bs[0] ++ bs[1] ++ ... ++ bs[n-1]` (R9), each byte in its own 8-bit lane. -/
def beValue : List Byte → Nat
  | [] => 0
  | b :: bs => b.toNat * 256 ^ bs.length + beValue bs

/-- `le_value(bs)` as a natural number: `bs[n-1] ++ ... ++ bs[1] ++ bs[0]` (R9). -/
def leValue : List Byte → Nat
  | [] => 0
  | b :: bs => b.toNat + 256 * leValue bs

/-- The bytes of `v` in the order of a command's tag (R53, R72). -/
def bytesInOrder {w : Nat} (o : Order) (n : Nat) (v : BitVec w) : List Byte :=
  match o with
  | .bigEndian => beBytes n v
  | .littleEndian => leBytes n v

/-- The value of a byte sequence in the order of a command's tag (R53, R72). -/
def valueInOrder (o : Order) (bs : List Byte) : Nat :=
  match o with
  | .bigEndian => beValue bs
  | .littleEndian => leValue bs

/-- `sint_64(v)`, the two's-complement integer of a 64-bit vector (R15). -/
def sint64 (v : BitVec 64) : Int :=
  if v.getLsbD 63 then (v.toNat : Int) - 2 ^ 64 else (v.toNat : Int)

/-! ### Characters -/

/-- DIGIT, `0` to `9` (R10). -/
def isDigit (c : Byte) : Bool := 0x30 ≤ c.toNat && c.toNat ≤ 0x39

/-- UPHEX, `A` to `F` (R10). -/
def isUpHex (c : Byte) : Bool := 0x41 ≤ c.toNat && c.toNat ≤ 0x46

/-- LOHEX, `a` to `f` (R10). -/
def isLoHex (c : Byte) : Bool := 0x61 ≤ c.toNat && c.toNat ≤ 0x66

/-- DOT, `.` (R10). -/
def dot : Byte := 0x2E

/-- `hexchar(n)`: the uppercase digit of a nibble (R11). -/
def hexchar (n : BitVec 4) : Byte :=
  if n.toNat ≤ 9 then BitVec.ofNat 8 (0x30 + n.toNat) else BitVec.ofNat 8 (0x41 + n.toNat - 10)

/-- `hexval(c)`: the nibble of a hex digit of either case; `none` is the spec's *invalid* (R12). -/
def hexval (c : Byte) : Option (BitVec 4) :=
  if isDigit c then some (BitVec.ofNat 4 (c.toNat - 0x30))
  else if isUpHex c then some (BitVec.ofNat 4 (c.toNat - 0x41 + 10))
  else if isLoHex c then some (BitVec.ofNat 4 (c.toNat - 0x61 + 10))
  else none

/-! ### Hex text -/

/-- The text HEXENC gives for a byte sequence: two digits a byte, high nibble first (R100). -/
def hexText : List Byte → List Byte
  | [] => []
  | b :: bs => hexchar (b.extractLsb' 4 4) :: hexchar (b.extractLsb' 0 4) :: hexText bs

/-- The bytes HEXDEC gives for a string, the first character of a pair in bits 7:4; `none` when the length is odd or a
character is no hex digit (R101). -/
def hexBytes : List Byte → Option (List Byte)
  | [] => some []
  | [_] => none
  | a :: b :: rest =>
    match hexval a, hexval b, hexBytes rest with
    | some hi, some lo, some bs => some ((hi ++ lo) :: bs)
    | _, _, _ => none

/-! ### Decimal text -/

/-- `decval(t)`: the number a string of digits denotes in base ten, most significant digit first (R13). A natural number:
it never wraps. -/
def decval : List Byte → Nat
  | [] => 0
  | d :: ds => (d.toNat - 0x30) * 10 ^ ds.length + decval ds

/-- `dec(o)`: the shortest string of digits of an octet (R14). -/
def dec (o : Byte) : List Byte :=
  let h := o.toNat / 100
  let t := o.toNat / 10 % 10
  let u := o.toNat % 10
  let digit (n : Nat) : Byte := BitVec.ofNat 8 (0x30 + n)
  if h > 0 then [digit h, digit t, digit u]
  else if t > 0 then [digit t, digit u]
  else [digit u]

/-! ### IPv4 text -/

/-- A string cut at every DOT byte (R130): one token more than it has DOTs. -/
def splitDots : List Byte → List (List Byte)
  | [] => [[]]
  | b :: bs =>
    if b = dot then [] :: splitDots bs
    else
      match splitDots bs with
      | [] => [[b]]
      | t :: ts => (b :: t) :: ts

/-- R130 (c) and (d): a decimal token is one or more DIGITs and nothing else, and its value is at most 255. -/
def octetOf (t : List Byte) : Option Nat :=
  if t.length ≠ 0 ∧ t.all isDigit = true ∧ decval t ≤ 255 then some (decval t) else none

/-- `v0<<24 | v1<<16 | v2<<8 | v3` (R130). -/
def composeAddr (v0 v1 v2 v3 : Nat) : BitVec 32 :=
  BitVec.ofNat 32 (v0 <<< 24 ||| v1 <<< 16 ||| v2 <<< 8 ||| v3)

/-- The address a dotted-quad string denotes; `none` when one of the tests (a) to (d) of R130 fails. -/
def parseAddr (s : List Byte) : Option (BitVec 32) :=
  if s.length < 7 ∨ 15 < s.length then none
  else
    match splitDots s with
    | [t0, t1, t2, t3] =>
      match octetOf t0, octetOf t1, octetOf t2, octetOf t3 with
      | some v0, some v1, some v2, some v3 => some (composeAddr v0 v1 v2 v3)
      | _, _, _, _ => none
    | _ => none

/-- The canonical dotted-quad text of an address, the most significant octet first (R131). -/
def addrText (a : BitVec 32) : List Byte :=
  dec (a.extractLsb' 24 8) ++ [dot] ++ dec (a.extractLsb' 16 8) ++ [dot] ++
    dec (a.extractLsb' 8 8) ++ [dot] ++ dec (a.extractLsb' 0 8)

/-! ### Endpoint record -/

/-- The 6 bytes of an endpoint: the address big-endian, then the port little-endian (R160, R53). -/
def endpointBytes (a : BitVec 32) (p : BitVec 16) : List Byte := beBytes 4 a ++ leBytes 2 p

end Sys2Proof.Machine
end

