-- ==== Sys2Proof/Config.lean ====
section
/-!
DEFINITION. What an implementation fixes (the parameter LENW, 00_scope.md R4, 93_implementation_defined.md U10) and the
free values (U1 to U3). None of the opaque constants below has a body: nothing can be proved of the value it has, so a
theorem about the block holds for every LENW >= 4 and for every value the spec leaves unspecified.
-/

namespace Sys2Proof.Config

/-- LENW - 4. DESIGN CHOICE (log 3, safe): LENW is a parameter, any natural number that is at least 4 (R4). -/
opaque lenwAbove : Nat

/-- LENW, the one implementation parameter (R4). -/
def lenw : Nat := lenwAbove + 4

/-- IN_CAP = 2^LENW - 1 (R4), written as 15 bytes, which every block has, and the rest; `inCap_eq` is the spec's own
formula. In this form a comparison of IN_CAP with a number up to 15 can be evaluated whatever LENW is. -/
def inCap : Nat := 16 * (2 ^ lenwAbove - 1) + 15

/-- OUT_CAP = 2 * IN_CAP (R4). -/
def outCap : Nat := 2 * inCap

/-- R4: `IN_CAP = 2^LENW - 1`. -/
theorem inCap_eq : inCap = 2 ^ lenw - 1 := by
  have h : 0 < 2 ^ lenwAbove := Nat.two_pow_pos _
  simp only [inCap, lenw, pow_add]
  omega

/-- R4: the smallest capacity of IBUF, the longest IPv4 string. -/
theorem inCap_ge : 15 ≤ inCap := by
  simp [inCap]

/-- The smallest capacity of OBUF (U7). -/
theorem outCap_ge : 30 ≤ outCap := by
  simp only [outCap, inCap]
  omega

/-- Free value (log 4): what Y64 holds from draw `d` on, where no rule defines it (U1, U3). -/
opaque freeY64 (d : Nat) : BitVec 64

/-- Free value (log 4): what Y32 holds from draw `d` on, where no rule defines it (U1, U3). -/
opaque freeY32 (d : Nat) : BitVec 32

/-- Free value (log 4): what YP holds from draw `d` on, where no rule defines it (U1, U3). -/
opaque freeYp (d : Nat) : BitVec 16

/-- Free value (logs 4, 10): what OLEN holds from draw `d` on, where no rule defines it (U1, U3): any of its LENW + 1
bits' values (R31), under no law. -/
opaque freeOlen (d : Nat) : BitVec (lenw + 1)

/-- Free value (log 4): what OBUF[i] holds from draw `d` on, where no rule defines it (U1, U2, U3). -/
opaque freeObuf (d i : Nat) : Byte

/-- Free value (log 6): what IBUF[i] holds after the reset of draw `d` until the host writes it (U3). -/
opaque freeIbuf (d i : Nat) : Byte

/-- The number OLEN holds at draw `d` (logs 9, 10). -/
def drawnOlen (d : Nat) : Nat := (freeOlen d).toNat

/-- R31: a drawn OLEN is a number of LENW + 1 bits. -/
theorem drawnOlen_lt (d : Nat) : drawnOlen d < 2 ^ (lenw + 1) := (freeOlen d).isLt

/-- R4, R31: `OUT_CAP` is the last number but one that LENW + 1 bits hold. -/
theorem outCap_eq : outCap + 2 = 2 ^ (lenw + 1) := by
  have h : 0 < 2 ^ lenw := Nat.two_pow_pos _
  simp only [outCap, inCap_eq, pow_succ]
  omega

end Sys2Proof.Config
end

