-- ==== Sys2Proof/Machine/State.lean ====
section
/-!
DEFINITION. The architectural state of the block (10_state.md R20: exactly eleven items), the host's actions (R39), the
reasons a step can stop, and the state after reset (R40). State is plain data.
-/

namespace Sys2Proof.Machine

/-- A byte buffer (20_memory.md R50): the bytes that have a known value, each at its index. An index that is not listed
holds NO known byte; what a read of it gives is decided once, in `State.ibufByte` and `State.obufByte` (log 6). -/
abbrev Memory := List Host.Cell

/-- The canonical form of a buffer of `cap` bytes: indices strictly rising (so no index twice) and all below `cap`. No
entry can equal what an unlisted index holds, since an unlisted index holds no known byte. -/
abbrev Memory.wf (cap : Nat) (m : Memory) : Prop :=
  List.Pairwise (fun p q : Host.Cell => p.1 < q.1) m ∧ ∀ c ∈ m, c.1 < cap

/-- The four errors of 60_exceptions.md R170. -/
inductive ErrorKind where
  /-- "malformed hex or dotted-quad text" -/
  | invalidFormat
  /-- "byte sequence not the exact required width for the target type" -/
  | lengthMismatch
  /-- "numeric value outside the declared domain of the target width" -/
  | rangeError
  /-- the command word is not one of the nineteen legal words (R173) -/
  | illegalCommand
deriving DecidableEq, Repr

/-- The values the STATUS register takes (10_state.md R27). Codes 6 to 255 are never produced (U6, log 8). -/
inductive Status where
  /-- no command has completed since reset -/
  | idle
  /-- the last command succeeded and its results are valid -/
  | ok
  /-- the last command ended with this error -/
  | error (e : ErrorKind)
deriving DecidableEq, Repr

/-- What the host may read (R39). CMD is not among them (R26, U4). -/
inductive Readable where
  | x64 | x32 | xp | ilen
  | ibuf (i : Nat)
  | status | y64 | y32 | yp | olen
  | obuf (i : Nat)
deriving DecidableEq, Repr

/-- The host's actions: the closed list of 10_state.md R39. -/
inductive HostAction where
  | writeX64 (v : BitVec 64)
  | writeX32 (v : BitVec 32)
  | writeXp (v : BitVec 32)
  /-- the number written to the LENW-bit register ILEN -/
  | writeIlen (v : Nat)
  /-- `write IBUF[i], b` -/
  | writeIbuf (i : Nat) (b : Byte)
  /-- `write CMD, c`: issues the command word `c` -/
  | writeCmd (c : Byte)
  | read (r : Readable)
  | reset
deriving DecidableEq, Repr

/-- The block's state. The first eleven fields are R20's eleven items; the last four are the model's own. -/
structure State where
  /-- request: a `u64` or `i64` operand (R21) -/
  x64 : BitVec 64
  /-- request: a `u32` operand or an IPv4 address (R22) -/
  x32 : BitVec 32
  /-- request: a port operand (R23) -/
  xp : BitVec 32
  /-- request: the length of the input, `0 .. IN_CAP` (R24, log 9) -/
  ilen : Nat
  /-- request: the bytes of IBUF written since the last reset (R25) -/
  ibuf : Memory
  /-- response: the outcome of the last command (R27) -/
  status : Status
  /-- response: a `u64` result (R28) -/
  y64 : BitVec 64
  /-- response: a `u32`, `i32` or IPv4 address result (R29) -/
  y32 : BitVec 32
  /-- response: a port result (R30) -/
  yp : BitVec 16
  /-- response: the length of the output, `0 .. OUT_CAP` where it is defined (R31, logs 9, 10) -/
  olen : Nat
  /-- response: the bytes of OBUF the last command defined (R32) -/
  obuf : Memory
  /-- the model's own: which draw the response group's unspecified values come from (R91, log 7) -/
  drawn : Nat
  /-- the model's own: which draw IBUF's unwritten bytes come from (U3, log 7) -/
  ibufDraw : Nat
  /-- the model's own: the host actions still to be performed, oldest first (R39, R57, log 1) -/
  pending : List HostAction
  /-- the model's own: what the host's last read returned (R38, R39, log 11) -/
  readback : Option Nat
deriving DecidableEq, Repr

/-- Reasons the machine stops with a fault. The block has none: every failure is a value of STATUS and the machine goes on
(60_exceptions.md R176, R177), so no step raises a fault. -/
inductive Fault where
deriving DecidableEq, Repr

/-- Reasons a step is refused. -/
inductive Refusal where
  /-- Raised by no step of this model: it stands for an instruction whose arm of `exec` has no meaning yet (safe). -/
  | notModelled (mnemonic : String)
  /-- Raised by `perform` for a write or read of a buffer at an index outside it: "not an action the host has" (R39, U7;
  safe). -/
  | indexOutsideBuffer
  /-- Raised by `perform` for a write to ILEN of a number its LENW bits cannot hold (R24, R39; safe). -/
  | lengthOutsideRegister
deriving DecidableEq, Repr

/-- The outcome of one step of the block. -/
abbrev Result := Host.Outcome State Fault Refusal

/-- The machine right after reset (R40), which is also its state at power-on (R200). What R40 leaves unspecified is a free
value: Y64, Y32, YP, OLEN hold those of draw 0, and both buffers list nothing (logs 5, 6, 7). -/
def State.reset : State where
  x64 := 0
  x32 := 0
  xp := 0
  ilen := 0
  ibuf := []
  status := .idle
  y64 := Config.freeY64 0
  y32 := Config.freeY32 0
  yp := Config.freeYp 0
  olen := Config.drawnOlen 0
  obuf := []
  drawn := 0
  ibufDraw := 0
  pending := []
  readback := none

end Sys2Proof.Machine
end

