-- ==== Sys2Proof/Machine/Flags.lean ====
section
/-!
DEFINITION. STATUS, the block's only condition code (10_state.md R27, R34), and the checks on operands that decide it. The
block has no carry, overflow, zero or sign flag (R34).
-/

namespace Sys2Proof.Machine

/-- The code of an error (60_exceptions.md R170). -/
def errorCode : ErrorKind → BitVec 8
  | .invalidFormat => 2
  | .lengthMismatch => 3
  | .rangeError => 4
  | .illegalCommand => 5

/-- The 8 bits of the STATUS register, its field CODE (R27): what the host reads. -/
def statusCode : Status → BitVec 8
  | .idle => 0
  | .ok => 1
  | .error e => errorCode e

/-- R114: `-2^31 <= sint_64(X64) <= 2^31 - 1`, both bounds inclusive. -/
def fitsI32 (v : BitVec 64) : Bool := -2147483648 ≤ sint64 v && sint64 v ≤ 2147483647

/-- R150: a port operand is in range exactly when it is at most 65535, that is when `XP[31:16] = 0` (R23). -/
def portInRange (p : BitVec 32) : Bool := p.toNat ≤ 65535

end Sys2Proof.Machine
end

