-- ==== Sys2Proof/Machine/Ops.lean ====
section
/-!
DEFINITION. The named operations over the buffers and the registers, and the two ways a command ends: the success response
(40_execution.md R91) and the error response (R92), which is how the block takes an exception (60_exceptions.md R176).
There is no return from one (R177): an error saves nothing and the next command simply runs.
-/

namespace Sys2Proof.Machine

/-! ### Buffers -/

/-- The byte known at index `i`, if one is listed. -/
def Memory.read? : Memory → Nat → Option Byte
  | [], _ => none
  | (a, b) :: m, i => if a = i then some b else Memory.read? m i

/-- Write byte `b` at index `i`, keeping the indices strictly rising. -/
def Memory.write : Memory → Nat → Byte → Memory
  | [], i, b => [(i, b)]
  | (a, x) :: m, i, b =>
    if i < a then (i, b) :: (a, x) :: m
    else if i = a then (i, b) :: m
    else (a, x) :: Memory.write m i b

/-- A sequence at the indices `k, k + 1, ...` (20_memory.md R51). -/
def Memory.ofBytesFrom : Nat → List Byte → Memory
  | _, [] => []
  | k, b :: bs => (k, b) :: Memory.ofBytesFrom (k + 1) bs

/-- A sequence at the indices `0 .. len - 1`, and no other byte known (`OUT <- bs`, 00_scope.md R16). -/
def Memory.ofBytes (bs : List Byte) : Memory := Memory.ofBytesFrom 0 bs

/-- `IBUF[i]`: the byte the host wrote last, or, where it has written none since the last reset, the unspecified byte that
reset left there (R25, R40, U3: any value, and no fault). -/
def State.ibufByte (s : State) (i : Nat) : Byte := (s.ibuf.read? i).getD (Config.freeIbuf s.ibufDraw i)

/-- `OBUF[i]`: the byte the last command defined, or the unspecified byte of its draw (R32, R91, R92, U1, U2). -/
def State.obufByte (s : State) (i : Nat) : Byte := (s.obuf.read? i).getD (Config.freeObuf s.drawn i)

/-- `IN`, the input sequence `[IBUF[0], ..., IBUF[ILEN-1]]` (R16, R25). -/
def State.input (s : State) : List Byte := (List.range s.ilen).map s.ibufByte

/-- The output sequence `[OBUF[0], ..., OBUF[OLEN-1]]` (R32). -/
def State.output (s : State) : List Byte := (List.range s.olen).map s.obufByte

/-! ### Register writes by the host (R39): one item, the others untouched -/

def State.setX64 (s : State) (v : BitVec 64) : State := { s with x64 := v }

def State.setX32 (s : State) (v : BitVec 32) : State := { s with x32 := v }

def State.setXp (s : State) (v : BitVec 32) : State := { s with xp := v }

def State.setIlen (s : State) (v : Nat) : State := { s with ilen := v }

def State.setIbuf (s : State) (i : Nat) (b : Byte) : State := { s with ibuf := s.ibuf.write i b }

/-- What the host's read returned; nothing of the block changes (R38). -/
def State.setReadback (s : State) (v : Nat) : State := { s with readback := some v }

/-- The host actions still to come. -/
def State.setPending (s : State) (l : List HostAction) : State := { s with pending := l }

/-! ### Responses -/

/-- What an instruction's pseudocode assigned before `done` (R16, R91): registers, and the sequence of `OUT <- bs`. -/
structure Response where
  y64 : Option (BitVec 64) := none
  y32 : Option (BitVec 32) := none
  yp : Option (BitVec 16) := none
  out : Option (List Byte) := none
deriving DecidableEq, Repr

/-- Every response datum drawn anew: each register takes the free value of a new draw and no byte of OBUF is known (U1,
R91, R92; log 4). STATUS is not among them: it is never unspecified. -/
def State.redraw (s : State) : State :=
  { s with
    y64 := Config.freeY64 (s.drawn + 1)
    y32 := Config.freeY32 (s.drawn + 1)
    yp := Config.freeYp (s.drawn + 1)
    olen := Config.drawnOlen (s.drawn + 1)
    obuf := []
    drawn := s.drawn + 1 }

/-- The state after a success response (R91): STATUS is OK, each item the pseudocode assigned holds the value assigned, and
every other part of the response is unspecified. -/
def State.succeeded (r : Response) (s : State) : State :=
  { s.redraw with
    status := .ok
    y64 := r.y64.getD s.redraw.y64
    y32 := r.y32.getD s.redraw.y32
    yp := r.yp.getD s.redraw.yp
    olen := (r.out.map List.length).getD s.redraw.olen
    obuf := (r.out.map Memory.ofBytes).getD s.redraw.obuf }

/-- The state after an error response (R92, R176): STATUS is the error, all response data is unspecified, and nothing else
happens. -/
def State.failed (e : ErrorKind) (s : State) : State := { s.redraw with status := .error e }

/-- The pseudocode's `done` (R16). -/
def succeed (r : Response) (s : State) : Result := .next (s.succeeded r)

/-- The pseudocode's `raise E` (R16): taking an exception, for every command and for an illegal command word. -/
def raiseError (e : ErrorKind) (s : State) : Result := .next (s.failed e)

/-- The host action `reset` (70_reset_and_hazards.md R200, R201; 10_state.md R40): the zeroed registers and IDLE, and all
that R40 leaves unspecified drawn anew, IBUF included. What the host itself holds (the actions still to come, what its last
read returned) is no part of the block and stays (log 14). -/
def State.hostReset (s : State) : State :=
  { s.redraw with
    x64 := 0
    x32 := 0
    xp := 0
    ilen := 0
    ibuf := []
    ibufDraw := s.drawn + 1
    status := .idle }

/-! ### The forms the instructions share -/

/-- A command that always succeeds and produces a sequence. -/
def emit (bs : List Byte) (s : State) : Result := succeed { out := some bs } s

/-- A fixed-width decoder (20_memory.md R61): the input must be exactly `n` bytes long, and is neither cut nor padded. -/
def decodeExact (n : Nat) (result : List Byte → Response) (s : State) : Result :=
  if s.ilen = n then succeed (result s.input) s else raiseError .lengthMismatch s

/-- The value of a host read (R39): the number the item holds. -/
def State.readValue (s : State) : Readable → Nat
  | .x64 => s.x64.toNat
  | .x32 => s.x32.toNat
  | .xp => s.xp.toNat
  | .ilen => s.ilen
  | .ibuf i => (s.ibufByte i).toNat
  | .status => (statusCode s.status).toNat
  | .y64 => s.y64.toNat
  | .y32 => s.y32.toNat
  | .yp => s.yp.toNat
  | .olen => s.olen
  | .obuf i => (s.obufByte i).toNat

/-- Whether the host has this read (R39): an index outside a buffer is no action of the host's (U7). -/
def readableExists : Readable → Bool
  | .ibuf i => i < Config.inCap
  | .obuf i => i < Config.outCap
  | .x64 | .x32 | .xp | .ilen | .status | .y64 | .y32 | .yp | .olen => true

end Sys2Proof.Machine
end

