-- ==== Sys2Proof/Machine/Integer.lean ====
section
/-!
DEFINITION. The integer commands ENC64, DEC64, ENC32, DEC32 and SDC32 (42_integer.md).
-/

namespace Sys2Proof.Machine

/-- ENC64.BE (R110). -/
def execEnc64Be (s : State) : Result := emit (bytesInOrder .bigEndian 8 s.x64) s

/-- ENC64.LE (R110). -/
def execEnc64Le (s : State) : Result := emit (bytesInOrder .littleEndian 8 s.x64) s

/-- `Y64 <- be_value(IN)` or `Y64 <- le_value(IN)` (R111). -/
def y64InOrder (o : Order) (bs : List Byte) : Response := { y64 := some (BitVec.ofNat 64 (valueInOrder o bs)) }

/-- DEC64.BE (R111). -/
def execDec64Be (s : State) : Result := decodeExact 8 (y64InOrder .bigEndian) s

/-- DEC64.LE (R111). -/
def execDec64Le (s : State) : Result := decodeExact 8 (y64InOrder .littleEndian) s

/-- ENC32.BE (R112). -/
def execEnc32Be (s : State) : Result := emit (bytesInOrder .bigEndian 4 s.x32) s

/-- ENC32.LE (R112). -/
def execEnc32Le (s : State) : Result := emit (bytesInOrder .littleEndian 4 s.x32) s

/-- `Y32 <- be_value(IN)` or `Y32 <- le_value(IN)` (R113, R133). -/
def y32InOrder (o : Order) (bs : List Byte) : Response := { y32 := some (BitVec.ofNat 32 (valueInOrder o bs)) }

/-- DEC32.BE (R113). -/
def execDec32Be (s : State) : Result := decodeExact 4 (y32InOrder .bigEndian) s

/-- DEC32.LE (R113). -/
def execDec32Le (s : State) : Result := decodeExact 4 (y32InOrder .littleEndian) s

/-- SDC32 (R114): the result is the pattern `X64[31:0]`, never a wrapped one. -/
def execSdc32 (s : State) : Result :=
  if fitsI32 s.x64 then succeed { y32 := some (s.x64.extractLsb' 0 32) } s else raiseError .rangeError s

end Sys2Proof.Machine
end

