-- ==== Sys2Proof/Machine/Address.lean ====
section
/-!
DEFINITION. The IPv4 address commands PARSEADDR, FMTADDR, ADDR2B and B2ADDR (43_address.md).
-/

namespace Sys2Proof.Machine

/-- PARSEADDR (R130). -/
def execParseaddr (s : State) : Result :=
  match parseAddr s.input with
  | some a => succeed { y32 := some a } s
  | none => raiseError .invalidFormat s

/-- FMTADDR (R131). -/
def execFmtaddr (s : State) : Result := emit (addrText s.x32) s

/-- ADDR2B (R132): big-endian always. -/
def execAddr2b (s : State) : Result := emit (beBytes 4 s.x32) s

/-- B2ADDR (R133): big-endian always. -/
def execB2addr (s : State) : Result := decodeExact 4 (y32InOrder .bigEndian) s

end Sys2Proof.Machine
end

