-- ==== Sys2Proof/Machine/Port.lean ====
section
/-!
DEFINITION. The port commands PORT2B and B2PORT (44_port.md).
-/

namespace Sys2Proof.Machine

/-- A command that packs the port operand XP: the check on all 32 bits comes first, and an out-of-range value is never cut
to its low 16 bits (R150, R160). -/
def withPort (pack : BitVec 16 → List Byte) (s : State) : Result :=
  if portInRange s.xp then emit (pack (s.xp.extractLsb' 0 16)) s else raiseError .rangeError s

/-- PORT2B (R150): little-endian always. -/
def execPort2b (s : State) : Result := withPort (leBytes 2) s

/-- `le_value(bs)` as a port (R151). -/
def portOf (bs : List Byte) : BitVec 16 := BitVec.ofNat 16 (leValue bs)

/-- `YP <- le_value(IN)` (R151). -/
def portResponse (bs : List Byte) : Response := { yp := some (portOf bs) }

/-- B2PORT (R151). -/
def execB2port (s : State) : Result := decodeExact 2 portResponse s

end Sys2Proof.Machine
end

