-- ==== Sys2Proof/Machine/Endpoint.lean ====
section
/-!
DEFINITION. The endpoint commands EP2B and B2EP (45_endpoint.md).
-/

namespace Sys2Proof.Machine

/-- EP2B (R160): address big-endian, then port little-endian; the check is PORT2B's. -/
def execEp2b (s : State) : Result := withPort (endpointBytes s.x32) s

/-- `Y32 <- be_value(IN[0..3])` and `YP <- le_value(IN[4..5])`: the record is split at index 4 (R161). -/
def endpointResponse (bs : List Byte) : Response :=
  { y32 := some (BitVec.ofNat 32 (beValue (bs.take 4))), yp := some (portOf (bs.drop 4)) }

/-- B2EP (R161). -/
def execB2ep (s : State) : Result := decodeExact 6 endpointResponse s

end Sys2Proof.Machine
end

