-- ==== Sys2Proof/Machine/Hex.lean ====
section
/-!
DEFINITION. The hex commands HEXENC and HEXDEC (41_hex.md).
-/

namespace Sys2Proof.Machine

/-- HEXENC (R100). -/
def execHexenc (s : State) : Result := emit (hexText s.input) s

/-- HEXDEC (R101). -/
def execHexdec (s : State) : Result :=
  match hexBytes s.input with
  | some bs => emit bs s
  | none => raiseError .invalidFormat s

end Sys2Proof.Machine
end

