-- ==== Sys2Proof/Machine/Dispatch.lean ====
section
/-!
DEFINITION. One arm per command (40_execution.md R90 step 2): the pseudocode of the instruction the word selects.
-/

namespace Sys2Proof.Machine

def exec (i : Instr) (s : State) : Host.Outcome State Fault Refusal :=
  match i with
  | .hexenc => Sys2Proof.Machine.execHexenc s
  | .hexdec => Sys2Proof.Machine.execHexdec s
  | .enc64Be => Sys2Proof.Machine.execEnc64Be s
  | .enc64Le => Sys2Proof.Machine.execEnc64Le s
  | .dec64Be => Sys2Proof.Machine.execDec64Be s
  | .dec64Le => Sys2Proof.Machine.execDec64Le s
  | .enc32Be => Sys2Proof.Machine.execEnc32Be s
  | .enc32Le => Sys2Proof.Machine.execEnc32Le s
  | .dec32Be => Sys2Proof.Machine.execDec32Be s
  | .dec32Le => Sys2Proof.Machine.execDec32Le s
  | .sdc32 => Sys2Proof.Machine.execSdc32 s
  | .parseaddr => Sys2Proof.Machine.execParseaddr s
  | .fmtaddr => Sys2Proof.Machine.execFmtaddr s
  | .addr2b => Sys2Proof.Machine.execAddr2b s
  | .b2addr => Sys2Proof.Machine.execB2addr s
  | .port2b => Sys2Proof.Machine.execPort2b s
  | .b2port => Sys2Proof.Machine.execB2port s
  | .ep2b => Sys2Proof.Machine.execEp2b s
  | .b2ep => Sys2Proof.Machine.execB2ep s

end Sys2Proof.Machine
end

