-- ==== Sys2Proof/Machine/Issue.lean ====
section
/-!
DEFINITION. Issuing a command word (40_execution.md R90) and performing a host action (10_state.md R39).
-/

namespace Sys2Proof.Machine

/-- `write CMD, c`: decode, execute, respond, as one step (R90). An illegal word raises IllegalCommand before any operand
is looked at (60_exceptions.md R173, R175); which cause made it illegal is not reported (30_encoding.md R75). -/
def issue (c : Byte) (s : State) : Result :=
  match decode c with
  | .ok i => exec i s
  | .error _ => raiseError .illegalCommand s

/-- One host action (R39). A write takes effect at once and changes one item; a read returns the current value; an index
outside a buffer, or a length ILEN cannot hold, is not an action the host has and is refused (R39, U7; log 12). -/
def perform (a : HostAction) (s : State) : Result :=
  match a with
  | .writeX64 v => .next (s.setX64 v)
  | .writeX32 v => .next (s.setX32 v)
  | .writeXp v => .next (s.setXp v)
  | .writeIlen v => if v ≤ Config.inCap then .next (s.setIlen v) else .refused .lengthOutsideRegister
  | .writeIbuf i b => if i < Config.inCap then .next (s.setIbuf i b) else .refused .indexOutsideBuffer
  | .writeCmd c => issue c s
  | .read r => if readableExists r then .next (s.setReadback (s.readValue r)) else .refused .indexOutsideBuffer
  | .reset => .next s.hostReset

/-- Host actions performed one after the other, in the host's order (20_memory.md R57), up to the first that is refused. -/
def performAll : List HostAction → State → Result
  | [], s => .next s
  | a :: as, s =>
    match perform a s with
    | .next t => performAll as t
    | .fault f => .fault f
    | .refused r => .refused r

/-- The next state of the machine: the oldest pending host action is taken off and performed. While the host does nothing,
nothing changes (R37, R38, R39; log 13). -/
def advance (s : State) : Result :=
  match s.pending with
  | [] => .next s
  | a :: rest => perform a (s.setPending rest)

/-- `s` with the host about to write the command word `c` to CMD, before anything else (log 2). -/
def State.aboutToIssue (s : State) (c : Byte) : State := s.setPending (.writeCmd c :: s.pending)

end Sys2Proof.Machine
end

