-- ==== Sys2Proof/Machine/Step.lean ====
section
/-!
DEFINITION. One step of the machine: the host's next action takes effect (10_state.md R39, 20_memory.md R57).
-/

namespace Sys2Proof.Machine

/-- One step. -/
def step (s : State) : Host.Outcome State Fault Refusal := advance s

/-- `s` with the command word `w` of `nbits` bits as the very next thing the host writes to CMD, so that the next step runs
it. The block fetches from no memory (R33, R59): the host's write of CMD is where an instruction comes from (log 2). -/
def State.withFetchWord (s : State) (nbits w : Nat) : State := s.aboutToIssue (BitVec.ofNat 8 (w % 2 ^ nbits))

end Sys2Proof.Machine
end

