-- ==== Sys2Proof/Machine/Listing.lean ====
section
/-!
DEFINITION. The listing notation for host actions (30_encoding.md R80): what each listing line has the host do, as a list
of actions of R39, computed from the state the host reads. A command's mnemonic is `write CMD, word`; IF is the host's own
choice of its next line and is no action of the block (60_exceptions.md R182).
-/

namespace Sys2Proof.Machine

/-- `write IBUF[i], bs[i]` for the bytes of a sequence from index `k` on. -/
def writeBytesFrom : Nat → List Byte → List HostAction
  | _, [] => []
  | k, b :: bs => .writeIbuf k b :: writeBytesFrom (k + 1) bs

/-- `WRB bs`: the bytes, then the length. -/
def listWrb (bs : List Byte) : List HostAction := writeBytesFrom 0 bs ++ [.writeIlen bs.length]

/-- `CPY`: read OLEN and OBUF[0 .. OLEN-1], then `WRB` of that sequence. -/
def listCpy (s : State) : List HostAction :=
  .read .olen :: (List.range s.olen).map (fun i => .read (.obuf i)) ++ listWrb s.output

/-- `MOV X32, Y32`. -/
def listMovX32 (s : State) : List HostAction := [.read .y32, .writeX32 s.y32]

/-- `MOV X64, Y64`. -/
def listMovX64 (s : State) : List HostAction := [.read .y64, .writeX64 s.y64]

/-- `MOV XP, YP`, zero-extended to 32 bits. -/
def listMovXp (s : State) : List HostAction := [.read .yp, .writeXp (s.yp.setWidth 32)]

/-- A mnemonic of R74. -/
def listCommand (i : Instr) : List HostAction := [.writeCmd (encode i)]

end Sys2Proof.Machine
end

