-- ==== Sys2Proof/Safety.lean ====
section
/-!
DEFINITION. The terms claims are stated in: the invariant of the block's states, which request items a command reads and
which response items it defines (30_encoding.md R76, 10_state.md R20), and the errors it can raise (60_exceptions.md R171).
-/

namespace Sys2Proof.Machine

/-- What holds of every state the block can be in. A state outside it is one no run reaches. -/
structure State.Inv (s : State) : Prop where
  /-- R24: ILEN is a length the buffer can hold. -/
  ilen_le : s.ilen ≤ Config.inCap
  /-- R31: OLEN is a number of LENW + 1 bits. -/
  olen_lt : s.olen < 2 ^ (Config.lenw + 1)
  /-- R4, R31: OLEN holds a length the buffer can hold, `0 .. OUT_CAP`, unless it is unspecified (R91, R92, R40, U1); then
  it is the number of the present draw, and no byte of OBUF is known either. -/
  olen_fits : s.olen ≤ Config.outCap ∨ (s.olen = Config.drawnOlen s.drawn ∧ s.obuf = [])
  /-- IBUF is in canonical form and inside `0 .. IN_CAP-1` (R25). -/
  ibuf_wf : Memory.wf Config.inCap s.ibuf
  /-- OBUF is in canonical form and inside `0 .. OUT_CAP-1` (R32). -/
  obuf_wf : Memory.wf Config.outCap s.obuf
  /-- R32: bytes at indices at and beyond OLEN are unspecified. -/
  obuf_below : ∀ c ∈ s.obuf, c.1 < s.olen
  /-- R92, R40: after an error, or before the first command, every byte of OBUF is unspecified. -/
  obuf_only_ok : s.status ≠ .ok → s.obuf = []
  /-- The last reset is not younger than the last draw. -/
  ibufDraw_le : s.ibufDraw ≤ s.drawn

/-- R76: the commands that read X64. -/
def readsX64 : Instr → Bool
  | .enc64Be | .enc64Le | .sdc32 => true
  | .hexenc | .hexdec | .dec64Be | .dec64Le | .enc32Be | .enc32Le | .dec32Be | .dec32Le | .parseaddr | .fmtaddr
  | .addr2b | .b2addr | .port2b | .b2port | .ep2b | .b2ep => false

/-- R76: the commands that read X32. -/
def readsX32 : Instr → Bool
  | .enc32Be | .enc32Le | .fmtaddr | .addr2b | .ep2b => true
  | .hexenc | .hexdec | .enc64Be | .enc64Le | .dec64Be | .dec64Le | .dec32Be | .dec32Le | .sdc32 | .parseaddr
  | .b2addr | .port2b | .b2port | .b2ep => false

/-- R76: the commands that read XP. -/
def readsXp : Instr → Bool
  | .port2b | .ep2b => true
  | .hexenc | .hexdec | .enc64Be | .enc64Le | .dec64Be | .dec64Le | .enc32Be | .enc32Le | .dec32Be | .dec32Le
  | .sdc32 | .parseaddr | .fmtaddr | .addr2b | .b2addr | .b2port | .b2ep => false

/-- R76: the commands that read ILEN and IBUF[0 .. ILEN-1]. -/
def readsInput : Instr → Bool
  | .hexenc | .hexdec | .dec64Be | .dec64Le | .dec32Be | .dec32Le | .parseaddr | .b2addr | .b2port | .b2ep => true
  | .enc64Be | .enc64Le | .enc32Be | .enc32Le | .sdc32 | .fmtaddr | .addr2b | .port2b | .ep2b => false

/-- R20: the commands that give Y64 a defined value on success. -/
def definesY64 : Instr → Bool
  | .dec64Be | .dec64Le => true
  | .hexenc | .hexdec | .enc64Be | .enc64Le | .enc32Be | .enc32Le | .dec32Be | .dec32Le | .sdc32 | .parseaddr
  | .fmtaddr | .addr2b | .b2addr | .port2b | .b2port | .ep2b | .b2ep => false

/-- R20: the commands that give Y32 a defined value on success. -/
def definesY32 : Instr → Bool
  | .dec32Be | .dec32Le | .sdc32 | .parseaddr | .b2addr | .b2ep => true
  | .hexenc | .hexdec | .enc64Be | .enc64Le | .dec64Be | .dec64Le | .enc32Be | .enc32Le | .fmtaddr | .addr2b
  | .port2b | .b2port | .ep2b => false

/-- R20: the commands that give YP a defined value on success. -/
def definesYp : Instr → Bool
  | .b2port | .b2ep => true
  | .hexenc | .hexdec | .enc64Be | .enc64Le | .dec64Be | .dec64Le | .enc32Be | .enc32Le | .dec32Be | .dec32Le
  | .sdc32 | .parseaddr | .fmtaddr | .addr2b | .b2addr | .port2b | .ep2b => false

/-- R20: the commands that give OLEN and OBUF[0 .. OLEN-1] defined values on success. -/
def definesOutput : Instr → Bool
  | .hexenc | .hexdec | .enc64Be | .enc64Le | .enc32Be | .enc32Le | .fmtaddr | .addr2b | .port2b | .ep2b => true
  | .dec64Be | .dec64Le | .dec32Be | .dec32Le | .sdc32 | .parseaddr | .b2addr | .b2port | .b2ep => false

/-- R171: the one error kind a command with a legal word can raise, if any. -/
def errorOf : Instr → Option ErrorKind
  | .hexdec | .parseaddr => some .invalidFormat
  | .dec64Be | .dec64Le | .dec32Be | .dec32Le | .b2addr | .b2port | .b2ep => some .lengthMismatch
  | .sdc32 | .port2b | .ep2b => some .rangeError
  | .hexenc | .enc64Be | .enc64Le | .enc32Be | .enc32Le | .fmtaddr | .addr2b => none

/-- Two states that agree on the request registers and buffer bytes command `i` reads (40_execution.md R94). -/
structure AgreeOnReads (i : Instr) (s t : State) : Prop where
  x64 : readsX64 i = true → s.x64 = t.x64
  x32 : readsX32 i = true → s.x32 = t.x32
  xp : readsXp i = true → s.xp = t.xp
  ilen : readsInput i = true → s.ilen = t.ilen
  ibuf : readsInput i = true → ∀ k < s.ilen, s.ibufByte k = t.ibufByte k

/-- Two responses with the same STATUS and, when it is OK, the same value in every field command `i` defines (R94, R91). -/
structure SameResponse (i : Instr) (s t : State) : Prop where
  status : s.status = t.status
  y64 : s.status = .ok → definesY64 i = true → s.y64 = t.y64
  y32 : s.status = .ok → definesY32 i = true → s.y32 = t.y32
  yp : s.status = .ok → definesYp i = true → s.yp = t.yp
  olen : s.status = .ok → definesOutput i = true → s.olen = t.olen
  obuf : s.status = .ok → definesOutput i = true → ∀ k < s.olen, s.obufByte k = t.obufByte k

/-- The request group and all else the block never writes is the same in both states (R93, R37). -/
structure SameRequest (s t : State) : Prop where
  x64 : t.x64 = s.x64
  x32 : t.x32 = s.x32
  xp : t.xp = s.xp
  ilen : t.ilen = s.ilen
  ibuf : ∀ k, t.ibufByte k = s.ibufByte k
  pending : t.pending = s.pending
  readback : t.readback = s.readback

/-- The response data other than STATUS is all unspecified (R92): each register holds the free value of the present draw
and so does every byte of OBUF. -/
structure AllUnspecified (t : State) : Prop where
  y64 : t.y64 = Config.freeY64 t.drawn
  y32 : t.y32 = Config.freeY32 t.drawn
  yp : t.yp = Config.freeYp t.drawn
  olen : t.olen = Config.drawnOlen t.drawn
  obuf : ∀ k, t.obufByte k = Config.freeObuf t.drawn k

/-- The response group reads the same in both states (R38): STATUS, the result registers, and every byte of OBUF. -/
structure SameResponseGroup (s t : State) : Prop where
  status : t.status = s.status
  y64 : t.y64 = s.y64
  y32 : t.y32 = s.y32
  yp : t.yp = s.yp
  olen : t.olen = s.olen
  obuf : ∀ k, t.obufByte k = s.obufByte k

/-- The input of `u` is the output of `t`, as the host leaves it when it copies one to the other (`CPY`, R80). -/
structure Fed (t u : State) : Prop where
  ilen : u.ilen = t.olen
  ibuf : ∀ k < t.olen, u.ibufByte k = t.obufByte k

/-- Command `enc` on an operand for which `pre` holds, then command `dec` on its output, gives the operand back. -/
def EncodesThenDecodes {α : Type} (pre : State → Prop) (enc dec : Instr) (operand result : State → α) : Prop :=
  ∀ s, pre s → ∃ t, exec enc s = .next t ∧ t.status = .ok ∧
    ∀ u, Fed t u → ∃ v, exec dec u = .next v ∧ v.status = .ok ∧ result v = operand s

/-- Command `dec` on any `n` bytes, then command `enc` on its result, gives the same `n` bytes back and never fails. -/
def DecodesThenEncodes {α : Type} (n : Nat) (dec enc : Instr) (result operand : State → α) : Prop :=
  ∀ s, s.ilen = n → ∃ t, exec dec s = .next t ∧ t.status = .ok ∧
    ∀ u, operand u = result t →
      ∃ v, exec enc u = .next v ∧ v.status = .ok ∧ v.olen = n ∧ ∀ k < n, v.obufByte k = s.ibufByte k

/-- R130 (c): a decimal token is one or more DIGITs and nothing else. -/
def IsDecimalToken (t : List Byte) : Prop := t ≠ [] ∧ ∀ b ∈ t, isDigit b = true

/-- R130 (b) to (d): the string is four decimal tokens, cut by three DOTs, each with a value of at most 255. -/
structure IsDottedQuad (s t0 t1 t2 t3 : List Byte) : Prop where
  cut : s = t0 ++ dot :: (t1 ++ dot :: (t2 ++ dot :: t3))
  tokens : ∀ t ∈ [t0, t1, t2, t3], IsDecimalToken t
  octets : ∀ t ∈ [t0, t1, t2, t3], decval t ≤ 255

/-- A token without a leading zero: the canonical form of a token (00_scope.md section 8, R14). -/
def NoLeadingZero (t : List Byte) : Prop := t.length = 1 ∨ t.head? ≠ some 0x30

end Sys2Proof.Machine
end

