-- ==== Sys2Proof/Certificates/Slice0/Obligations.lean ====
section
/-!
DEFINITION. The statements about the block, for the provers. Each docstring names the rule of spec/ it formalises, or the
log entry it rests on. The words they use (`State.Inv`, `SameRequest`, `AllUnspecified`, `Fed` and the like) are defined in
Sys2Proof/Safety.lean.
-/

open Sys2Proof Sys2Proof.Machine

/-! ### The command word (30_encoding.md) -/

/-- R74's table read as a relation: the decoder accepts exactly these nineteen bytes, each as its instruction. -/
def Obligations.DecoderAcceptsExactlyNineteenWords : Prop :=
  ∀ (c : Byte) (i : Instr), decode c = .ok i ↔ (c.toNat, i) ∈
    [(0x01, Instr.hexenc), (0x02, .hexdec), (0x13, .enc64Be), (0x23, .enc64Le), (0x14, .dec64Be), (0x24, .dec64Le),
     (0x15, .enc32Be), (0x25, .enc32Le), (0x16, .dec32Be), (0x26, .dec32Le), (0x07, .sdc32), (0x08, .parseaddr),
     (0x09, .fmtaddr), (0x0A, .addr2b), (0x0B, .b2addr), (0x0C, .port2b), (0x0D, .b2port), (0x0E, .ep2b),
     (0x0F, .b2ep)]

/-- R75: each of the other 237 bytes is illegal for the cause its table gives, issuing one ends with IllegalCommand and
does nothing else; STATUS is the same for every cause, so which one applied is not reported. -/
def Obligations.IllegalWordsByCause : Prop :=
  (∀ c : Byte, decode c = .error .reservedBits ↔ 0x40 ≤ c.toNat) ∧
  (∀ c : Byte, decode c = .error .reservedOrder ↔ 0x30 ≤ c.toNat ∧ c.toNat ≤ 0x3F) ∧
  (∀ c : Byte, decode c = .error .reservedOpcode ↔ c.toNat = 0x00 ∨ c.toNat = 0x10 ∨ c.toNat = 0x20) ∧
  (∀ c : Byte, decode c = .error .unexpectedTag ↔
    c.toNat = 0x11 ∨ c.toNat = 0x12 ∨ (0x17 ≤ c.toNat ∧ c.toNat ≤ 0x1F) ∨
    c.toNat = 0x21 ∨ c.toNat = 0x22 ∨ (0x27 ≤ c.toNat ∧ c.toNat ≤ 0x2F)) ∧
  (∀ c : Byte, decode c = .error .missingTag ↔ 0x03 ≤ c.toNat ∧ c.toNat ≤ 0x06) ∧
  ((List.range 256).countP (fun n => (legalWord (BitVec.ofNat 8 n)).isNone) = 237) ∧
  (∀ (c : Byte) (e : IllegalCause) (s : State), decode c = .error e →
    ∃ t, issue c s = .next t ∧ t.status = .error .illegalCommand ∧ SameRequest s t) ∧
  (∀ (c d : Byte) (e f : IllegalCause) (s t u : State), decode c = .error e → decode d = .error f →
    issue c s = .next t → issue d s = .next u → t.status = u.status)

/-- R75's 'not reported' with log 4: two illegal words issued in one state give one next state. The equation takes in the
response data, which R92 leaves unspecified: that two draws of the same number agree is the model's choice. -/
def Obligations.IllegalCauseIsNotRecorded : Prop :=
  ∀ (c d : Byte) (e f : IllegalCause) (s : State), decode c = .error e → decode d = .error f → issue c s = issue d s

/-- R72: exactly the four integer operations take an order tag, and must name it; `ORD = 11` is reserved for every `OPC`. -/
def Obligations.OrderTagExactlyOnIntegerCommands : Prop :=
  (∀ c : Byte, ordField c = 0b11 → ∃ e, decode c = .error e) ∧
  (∀ c : Byte, rsvField c = 0 → opcField c ∈ [3, 4, 5, 6] →
    ((∃ i, decode c = .ok i) ↔ ordField c = 0b01 ∨ ordField c = 0b10)) ∧
  (∀ c : Byte, rsvField c = 0 → opcField c ∈ [1, 2, 7, 8, 9, 10, 11, 12, 13, 14, 15] →
    ((∃ i, decode c = .ok i) ↔ ordField c = 0b00)) ∧
  (∀ (c : Byte) (i : Instr), decode c = .ok i →
    (i.order = some .bigEndian ↔ ordField c = 0b01) ∧ (i.order = some .littleEndian ↔ ordField c = 0b10))

/-- R79 with R74: a listing of commands and the bytes it assembles to determine each other, one byte a command. -/
def Obligations.AssembleDisassembleAgree : Prop :=
  (∀ is : List Instr, disassemble (assemble is) = .ok is ∧ (assemble is).length = is.length) ∧
  (∀ (cs : List Byte) (is : List Instr), disassemble cs = .ok is → assemble is = cs)

/-! ### The step (40_execution.md) -/

/-- R90: when the host's next action writes a legal word to CMD, the step is `exec` of the decoded instruction, on the
state with that action taken off the host's list (log 1). -/
def Obligations.StepRunsTheDecodedInstruction : Prop :=
  ∀ (s : State) (c : Byte) (rest : List HostAction) (i : Instr), s.pending = .writeCmd c :: rest →
    decode c = .ok i → step s = exec i { s with pending := rest }

/-- Log 2: a state prepared with `withFetchWord` runs that very word in its next step. -/
def Obligations.FetchWordRunsNext : Prop :=
  ∀ (s : State) (w : Nat) (i : Instr), decodeTableWord 8 w = some i → step (s.withFetchWord 8 w) = exec i s

/-- R57 with log 1: the host's actions take effect one at a time in the host's order, and nothing is buffered or
reordered: a run of as many steps as there are actions is those actions performed in a row. -/
def Obligations.RunPerformsActionsInOrder : Prop :=
  ∀ (as : List HostAction) (s : State),
    Host.Core.run Sys2Proof.core as.length { s with pending := as } = performAll as { s with pending := [] }

/-- R93: a step never changes the request group, on success and on error; nor does it touch the host's own list or its last
read. The states are any at all, and the word is any of the 256. -/
def Obligations.CommandsLeaveTheRequestGroup : Prop :=
  ∀ (c : Byte) (s t : State), issue c s = .next t → SameRequest s t

/-- R90 and R175: whatever word is issued in whatever state, the step ends in a next state, and with OK, the one error kind
of the decoded command (R171), or IllegalCommand for a word that decodes to none. -/
def Obligations.EveryCommandEnds : Prop :=
  (∀ (i : Instr) (s : State), ∃ t, exec i s = .next t ∧
    (t.status = .ok ∨ ∃ e, errorOf i = some e ∧ t.status = .error e)) ∧
  (∀ (c : Byte) (e : IllegalCause) (s : State), decode c = .error e →
    ∃ t, issue c s = .next t ∧ t.status = .error .illegalCommand)

/-- R171's matrix: a command raises no error but its own kind, and does raise that kind in some state that
meets the invariant. -/
def Obligations.ErrorMatrix : Prop :=
  (∀ (i : Instr) (s t : State) (e : ErrorKind), exec i s = .next t → t.status = .error e → errorOf i = some e) ∧
  (∀ (i : Instr) (e : ErrorKind), errorOf i = some e →
    ∃ s t : State, s.Inv ∧ exec i s = .next t ∧ t.status = .error e)

/-- R91 with log 4: after OK, every response item the command does not define, and OBUF at and beyond OLEN, holds the free
value of a new draw; the model picks none of them and keeps none of the old ones. -/
def Obligations.SuccessDefinesOnlyItsItems : Prop :=
  ∀ (i : Instr) (s t : State), exec i s = .next t → t.status = .ok →
    t.drawn = s.drawn + 1 ∧
    (definesY64 i = false → t.y64 = Config.freeY64 t.drawn) ∧
    (definesY32 i = false → t.y32 = Config.freeY32 t.drawn) ∧
    (definesYp i = false → t.yp = Config.freeYp t.drawn) ∧
    (definesOutput i = false → t.olen = Config.drawnOlen t.drawn ∧
      ∀ k, t.obufByte k = Config.freeObuf t.drawn k) ∧
    (definesOutput i = true → ∀ k, t.olen ≤ k → t.obufByte k = Config.freeObuf t.drawn k)

/-- R92 and R176 with log 4: after an error all response data is unspecified, and nothing but the code is recorded. -/
def Obligations.ErrorLeavesNoResult : Prop :=
  ∀ (c : Byte) (s t : State) (e : ErrorKind), issue c s = .next t → t.status = .error e →
    AllUnspecified t ∧ t.drawn = s.drawn + 1 ∧ t.ibufDraw = s.ibufDraw ∧ SameRequest s t

/-- R94: the response of a command is a function of the command and of the request items it reads: whatever else differs
between two states (the response group, the other registers, the bytes beyond ILEN, what ran before), STATUS and every
defined field are the same. -/
def Obligations.ResponseDependsOnlyOnReads : Prop :=
  ∀ (i : Instr) (s t s' t' : State), AgreeOnReads i s t → exec i s = .next s' → exec i t = .next t' →
    SameResponse i s' t'

/-- R177, R60: an error is not sticky and nothing is retried: the same word issued again gives the same STATUS and the
same defined results. -/
def Obligations.ReissueGivesTheSameResponse : Prop :=
  ∀ (c : Byte) (s t u : State), issue c s = .next t → issue c t = .next u →
    u.status = t.status ∧ ∀ i, decode c = .ok i → SameResponse i t u

/-! ### Invariants -/

/-- Every step, whatever the host does in it, keeps the invariant `State.Inv` (R4, R24, R25, R31, R32; the buffers'
canonical form is log 6; an unspecified OLEN is any number of its width, log 10). -/
def Obligations.InvariantKeptByEveryStep : Prop :=
  ∀ s t : State, s.Inv → step s = .next t → t.Inv

/-- The invariant holds right after reset (R40; the OLEN that reset draws is any number of its width, log 10). -/
def Obligations.InvariantHoldsAtReset : Prop := State.reset.Inv

/-- U7 with log 12: a step is refused exactly when the host's next action is none of R39's: an index outside a buffer, or a
length that ILEN's LENW bits cannot hold. No command is ever refused. -/
def Obligations.RefusesOnlyWhatTheHostLacks : Prop :=
  ∀ (s : State) (r : Refusal), step s = .refused r ↔ ∃ a rest, s.pending = a :: rest ∧
    ((∃ v, a = .writeIlen v ∧ 2 ^ Config.lenw ≤ v ∧ r = .lengthOutsideRegister) ∨
     (∃ i b, a = .writeIbuf i b ∧ Config.inCap ≤ i ∧ r = .indexOutsideBuffer) ∨
     (∃ i, a = .read (.ibuf i) ∧ Config.inCap ≤ i ∧ r = .indexOutsideBuffer) ∨
     (∃ i, a = .read (.obuf i) ∧ Config.outCap ≤ i ∧ r = .indexOutsideBuffer))

/-! ### Reset (70_reset_and_hazards.md, 10_state.md section 8) -/

/-- R40: the values the spec gives for reset. -/
def Obligations.ResetValues : Prop :=
  State.reset.status = .idle ∧ statusCode State.reset.status = 0 ∧ State.reset.x64 = 0 ∧ State.reset.x32 = 0 ∧
    State.reset.xp = 0 ∧ State.reset.ilen = 0 ∧ State.reset.input = []

/-- R200: reset is available in any state, puts STATUS at IDLE and the four request registers at 0, is the only way STATUS
returns to IDLE, and a block that has just been powered on is in that state. -/
def Obligations.ResetActionAndIdle : Prop :=
  (∀ (s : State) (rest : List HostAction), s.pending = .reset :: rest →
    ∃ t, step s = .next t ∧ t.status = .idle ∧ t.x64 = 0 ∧ t.x32 = 0 ∧ t.xp = 0 ∧ t.ilen = 0) ∧
  (∀ s t : State, step s = .next t → t.status = .idle → s.status ≠ .idle → ∃ rest, s.pending = .reset :: rest) ∧
  (State.reset.status = .idle ∧ State.reset.x64 = 0 ∧ State.reset.x32 = 0 ∧ State.reset.xp = 0 ∧ State.reset.ilen = 0)

/-- U3 with logs 4 and 6: reset draws everything it leaves unspecified anew, every byte of IBUF included, so that nothing
can be read that was there before; the host's own list and last read stay (log 14). -/
def Obligations.ResetForgetsTheRest : Prop :=
  ∀ (s : State) (rest : List HostAction), s.pending = .reset :: rest →
    ∃ t, step s = .next t ∧ AllUnspecified t ∧ t.drawn = s.drawn + 1 ∧
      (∀ k, t.ibufByte k = Config.freeIbuf (s.drawn + 1) k) ∧ t.pending = rest ∧ t.readback = s.readback

/-- R202's table, for every state whose operands are those of reset (whatever the buffers and the response hold). -/
def Obligations.FirstCommandAfterReset : Prop :=
  ∀ s : State, s.x64 = 0 → s.x32 = 0 → s.xp = 0 → s.ilen = 0 →
    (∀ i ∈ [Instr.hexenc, .hexdec], ∃ t, exec i s = .next t ∧ t.status = .ok ∧ t.output = []) ∧
    (∀ i ∈ [Instr.enc64Be, .enc64Le], ∃ t, exec i s = .next t ∧ t.status = .ok ∧ t.output = [0, 0, 0, 0, 0, 0, 0, 0]) ∧
    (∀ i ∈ [Instr.enc32Be, .enc32Le, .addr2b], ∃ t, exec i s = .next t ∧ t.status = .ok ∧ t.output = [0, 0, 0, 0]) ∧
    (∃ t, exec .fmtaddr s = .next t ∧ t.status = .ok ∧ t.output = [0x30, 0x2E, 0x30, 0x2E, 0x30, 0x2E, 0x30]) ∧
    (∃ t, exec .port2b s = .next t ∧ t.status = .ok ∧ t.output = [0, 0]) ∧
    (∃ t, exec .ep2b s = .next t ∧ t.status = .ok ∧ t.output = [0, 0, 0, 0, 0, 0]) ∧
    (∃ t, exec .sdc32 s = .next t ∧ t.status = .ok ∧ t.y32 = 0) ∧
    (∀ i ∈ [Instr.dec64Be, .dec64Le, .dec32Be, .dec32Le, .b2addr, .b2port, .b2ep],
      ∃ t, exec i s = .next t ∧ t.status = .error .lengthMismatch) ∧
    (∃ t, exec .parseaddr s = .next t ∧ t.status = .error .invalidFormat) ∧
    (∀ (c : Byte) (e : IllegalCause), decode c = .error e →
      ∃ t, issue c s = .next t ∧ t.status = .error .illegalCommand)

/-! ### Host actions (10_state.md section 7) -/

/-- R39's rows of writes, with R37: a host write sets its item to the value written, and nothing else of the block. The
capacity is the spec's own formula (R4). -/
def Obligations.HostWritesSetOneItem : Prop :=
  ∀ s : State,
    (∀ v, perform (.writeX64 v) s = .next { s with x64 := v }) ∧
    (∀ v, perform (.writeX32 v) s = .next { s with x32 := v }) ∧
    (∀ v, perform (.writeXp v) s = .next { s with xp := v }) ∧
    (∀ v, v < 2 ^ Config.lenw → perform (.writeIlen v) s = .next { s with ilen := v }) ∧
    (∀ i b, i < 2 ^ Config.lenw - 1 → ∃ t, perform (.writeIbuf i b) s = .next t ∧ t.ibufByte i = b ∧
      (∀ k, k ≠ i → t.ibufByte k = s.ibufByte k) ∧ { t with ibuf := s.ibuf } = s)

/-- R38: the host has no way to write the response group: an action of the host's that is neither a command nor a reset
leaves STATUS, the result registers, OLEN and every byte of OBUF as they are, so a read repeated with no command or reset
between returns the same value; and a read changes nothing of the block. -/
def Obligations.ResponseStandsUntilTheNextCommand : Prop :=
  (∀ (a : HostAction) (s t : State), perform a s = .next t → (∀ c, a ≠ .writeCmd c) → a ≠ .reset →
    SameResponseGroup s t) ∧
  (∀ (r : Readable) (s t : State), perform (.read r) s = .next t →
    { t with readback := s.readback } = s ∧ ∀ q, t.readValue q = s.readValue q)

/-- R39's row of reads, with log 11: every register, every byte of IBUF below IN_CAP and every byte of OBUF below OUT_CAP
can be read, and the read returns the current value of that very item; STATUS reads as the code R27 gives it. -/
def Obligations.HostReadsReturnTheCurrentValue : Prop :=
  ∀ (s : State) (rest : List HostAction),
    (∀ p ∈ [(Readable.x64, s.x64.toNat), (.x32, s.x32.toNat), (.xp, s.xp.toNat), (.ilen, s.ilen),
        (.status, (statusCode s.status).toNat), (.y64, s.y64.toNat), (.y32, s.y32.toNat), (.yp, s.yp.toNat), (.olen, s.olen)],
      s.pending = .read p.1 :: rest → ∃ t, step s = .next t ∧ t.readback = some p.2) ∧
    (statusCode .idle = 0 ∧ statusCode .ok = 1 ∧ statusCode (.error .invalidFormat) = 2 ∧
      statusCode (.error .lengthMismatch) = 3 ∧ statusCode (.error .rangeError) = 4 ∧
      statusCode (.error .illegalCommand) = 5) ∧
    (∀ i < 2 ^ Config.lenw - 1, s.pending = .read (.ibuf i) :: rest →
      ∃ t, step s = .next t ∧ t.readback = some (s.ibufByte i).toNat) ∧
    (∀ i < 2 * (2 ^ Config.lenw - 1), s.pending = .read (.obuf i) :: rest →
      ∃ t, step s = .next t ∧ t.readback = some (s.obufByte i).toNat)

/-- R80: the listing line `WRB bs` makes `bs` the input, and `CPY` makes the output the input, each on every block it fits
in, and neither changes the response group or another operand. -/
def Obligations.ListingLinesSetTheInput : Prop :=
  (∀ (bs : List Byte) (s : State), bs.length ≤ Config.inCap →
    ∃ t, performAll (listWrb bs) s = .next t ∧ t.input = bs ∧ SameResponseGroup s t ∧
      t.x64 = s.x64 ∧ t.x32 = s.x32 ∧ t.xp = s.xp) ∧
  (∀ s : State, s.olen ≤ Config.inCap →
    ∃ t, performAll (listCpy s) s = .next t ∧ Fed s t ∧ SameResponseGroup s t ∧
      t.x64 = s.x64 ∧ t.x32 = s.x32 ∧ t.xp = s.xp)

/-! ### Hex commands (41_hex.md) -/

/-- R100. -/
def Obligations.HexencEncodesEveryByte : Prop :=
  decode 0x01 = .ok .hexenc ∧
  ∀ s : State, ∃ t, exec .hexenc s = .next t ∧ t.status = .ok ∧ t.olen = 2 * s.ilen ∧
    (∀ i < s.ilen, t.obufByte (2 * i) = hexchar ((s.ibufByte i).extractLsb' 4 4) ∧
      t.obufByte (2 * i + 1) = hexchar ((s.ibufByte i).extractLsb' 0 4)) ∧
    (∀ k < t.olen, isDigit (t.obufByte k) = true ∨ isUpHex (t.obufByte k) = true) ∧
    (s.ilen ≤ Config.inCap → t.olen ≤ Config.outCap)

/-- R101. -/
def Obligations.HexdecAcceptsExactlyHexPairs : Prop :=
  decode 0x02 = .ok .hexdec ∧
  (∀ s : State, s.ilen % 2 = 0 → (∀ i < s.ilen, hexval (s.ibufByte i) ≠ none) →
    ∃ t, exec .hexdec s = .next t ∧ t.status = .ok ∧ t.olen = s.ilen / 2 ∧
      ∀ j < s.ilen / 2, ∃ hi lo, hexval (s.ibufByte (2 * j)) = some hi ∧
        hexval (s.ibufByte (2 * j + 1)) = some lo ∧ t.obufByte j = hi ++ lo) ∧
  (∀ s : State, s.ilen % 2 = 1 ∨ (∃ i < s.ilen, hexval (s.ibufByte i) = none) →
    ∃ t, exec .hexdec s = .next t ∧ t.status = .error .invalidFormat)

/-- R11 and R12 with the code points of R10 (general knowledge, G1): the two digit tables, every nibble and every byte. -/
def Obligations.HexDigitTables : Prop :=
  (∀ n : BitVec 4, hexchar n =
    [0x30, 0x31, 0x32, 0x33, 0x34, 0x35, 0x36, 0x37, 0x38, 0x39, 0x41, 0x42, 0x43, 0x44, 0x45, 0x46][n.toNat]!) ∧
  (∀ c : Byte, hexval c = none ↔ c.toNat < 0x30 ∨ (0x39 < c.toNat ∧ c.toNat < 0x41) ∨
    (0x46 < c.toNat ∧ c.toNat < 0x61) ∨ 0x66 < c.toNat) ∧
  (∀ c : Byte, 0x30 ≤ c.toNat → c.toNat ≤ 0x39 → hexval c = some (BitVec.ofNat 4 (c.toNat - 0x30))) ∧
  (∀ c : Byte, 0x41 ≤ c.toNat → c.toNat ≤ 0x46 → hexval c = some (BitVec.ofNat 4 (c.toNat - 0x41 + 10))) ∧
  (∀ c : Byte, 0x61 ≤ c.toNat → c.toNat ≤ 0x66 → hexval c = some (BitVec.ofNat 4 (c.toNat - 0x61 + 10))) ∧
  (∀ n : BitVec 4, hexval (hexchar n) = some n)

/-- R102: HEXENC on a sequence whose text fits back into IBUF, then HEXDEC on that text, gives the sequence back. -/
def Obligations.HexRoundTrip : Prop :=
  EncodesThenDecodes (fun s => 2 * s.ilen ≤ Config.inCap) .hexenc .hexdec State.input State.output

/-- R103: for every string HEXDEC accepts, HEXENC on its output gives the string with every lowercase letter replaced by
its uppercase letter, which is the string itself exactly when it has no lowercase letter. Text the block produces is
`[0-9A-F]*` of even length; text it accepts is `[0-9a-fA-F]*` of even length. -/
def Obligations.HexNormalises : Prop :=
  (∀ s t : State, exec .hexenc s = .next t → t.olen % 2 = 0 ∧ ∀ c ∈ t.output, isDigit c = true ∨ isUpHex c = true) ∧
  (∀ s t : State, exec .hexdec s = .next t → (t.status = .ok ↔
    s.input.length % 2 = 0 ∧ ∀ c ∈ s.input, isDigit c = true ∨ isUpHex c = true ∨ isLoHex c = true)) ∧
  ∀ s t : State, exec .hexdec s = .next t → t.status = .ok → ∀ u, Fed t u →
    ∃ v, exec .hexenc u = .next v ∧ v.status = .ok ∧
      v.output = s.input.map (fun c => if isLoHex c then BitVec.ofNat 8 (c.toNat - 0x20) else c) ∧
      (v.output = s.input ↔ ∀ c ∈ s.input, isLoHex c = false)

/-! ### Integer commands (42_integer.md) -/

/-- R110, both orders. -/
def Obligations.Enc64PacksEightBytes : Prop :=
  decode 0x13 = .ok .enc64Be ∧ decode 0x23 = .ok .enc64Le ∧
  (∀ s : State, ∃ t, exec .enc64Be s = .next t ∧ t.status = .ok ∧ t.olen = 8 ∧
    ∀ i < 8, t.obufByte i = s.x64.extractLsb' (56 - 8 * i) 8) ∧
  (∀ s : State, ∃ t, exec .enc64Le s = .next t ∧ t.status = .ok ∧ t.olen = 8 ∧
    ∀ i < 8, t.obufByte i = s.x64.extractLsb' (8 * i) 8)

/-- R111, both orders. -/
def Obligations.Dec64UnpacksEightBytes : Prop :=
  decode 0x14 = .ok .dec64Be ∧ decode 0x24 = .ok .dec64Le ∧
  (∀ s : State, s.ilen = 8 → ∃ t, exec .dec64Be s = .next t ∧ t.status = .ok ∧
    ∀ i < 8, t.y64.extractLsb' (56 - 8 * i) 8 = s.ibufByte i) ∧
  (∀ s : State, s.ilen = 8 → ∃ t, exec .dec64Le s = .next t ∧ t.status = .ok ∧
    ∀ i < 8, t.y64.extractLsb' (8 * i) 8 = s.ibufByte i) ∧
  (∀ s : State, s.ilen ≠ 8 → ∀ i ∈ [Instr.dec64Be, .dec64Le],
    ∃ t, exec i s = .next t ∧ t.status = .error .lengthMismatch)

/-- R112, both orders. -/
def Obligations.Enc32PacksFourBytes : Prop :=
  decode 0x15 = .ok .enc32Be ∧ decode 0x25 = .ok .enc32Le ∧
  (∀ s : State, ∃ t, exec .enc32Be s = .next t ∧ t.status = .ok ∧ t.olen = 4 ∧
    ∀ i < 4, t.obufByte i = s.x32.extractLsb' (24 - 8 * i) 8) ∧
  (∀ s : State, ∃ t, exec .enc32Le s = .next t ∧ t.status = .ok ∧ t.olen = 4 ∧
    ∀ i < 4, t.obufByte i = s.x32.extractLsb' (8 * i) 8)

/-- R113, both orders. -/
def Obligations.Dec32UnpacksFourBytes : Prop :=
  decode 0x16 = .ok .dec32Be ∧ decode 0x26 = .ok .dec32Le ∧
  (∀ s : State, s.ilen = 4 → ∃ t, exec .dec32Be s = .next t ∧ t.status = .ok ∧
    ∀ i < 4, t.y32.extractLsb' (24 - 8 * i) 8 = s.ibufByte i) ∧
  (∀ s : State, s.ilen = 4 → ∃ t, exec .dec32Le s = .next t ∧ t.status = .ok ∧
    ∀ i < 4, t.y32.extractLsb' (8 * i) 8 = s.ibufByte i) ∧
  (∀ s : State, s.ilen ≠ 4 → ∀ i ∈ [Instr.dec32Be, .dec32Le],
    ∃ t, exec i s = .next t ∧ t.status = .error .lengthMismatch)

/-- R114, whose two's complement and bounds the spec marks as general knowledge (R15, G2): both bounds are inclusive,
the result has the operand's signed value, and no value is wrapped. -/
def Obligations.Sdc32NarrowsInRange : Prop :=
  decode 0x07 = .ok .sdc32 ∧
  (∀ s : State, -2147483648 ≤ s.x64.toInt → s.x64.toInt ≤ 2147483647 →
    ∃ t, exec .sdc32 s = .next t ∧ t.status = .ok ∧ t.y32 = s.x64.extractLsb' 0 32 ∧ t.y32.toInt = s.x64.toInt) ∧
  (∀ s : State, s.x64.toInt < -2147483648 ∨ 2147483647 < s.x64.toInt →
    ∃ t, exec .sdc32 s = .next t ∧ t.status = .error .rangeError)

/-- R115 (marked derived): the integer codecs round-trip, both widths, both orders, both ways. -/
def Obligations.IntegerRoundTrips : Prop :=
  EncodesThenDecodes (fun _ => True) .enc64Be .dec64Be State.x64 State.y64 ∧
  EncodesThenDecodes (fun _ => True) .enc64Le .dec64Le State.x64 State.y64 ∧
  EncodesThenDecodes (fun _ => True) .enc32Be .dec32Be State.x32 State.y32 ∧
  EncodesThenDecodes (fun _ => True) .enc32Le .dec32Le State.x32 State.y32 ∧
  DecodesThenEncodes 8 .dec64Be .enc64Be State.y64 State.x64 ∧
  DecodesThenEncodes 8 .dec64Le .enc64Le State.y64 State.x64 ∧
  DecodesThenEncodes 4 .dec32Be .enc32Be State.y32 State.x32 ∧
  DecodesThenEncodes 4 .dec32Le .enc32Le State.y32 State.x32

/-- R116 and the last sentence of R115: the two orders differ by a byte reversal and by nothing else, and decoding with the
other order than the one used to encode gives the byte-reversed value, for each of the four mixed pairs. -/
def Obligations.OrdersDifferByByteReversal : Prop :=
  (∀ s t u : State, exec .enc64Be s = .next t → exec .enc64Le s = .next u →
    u.output = t.output.reverse) ∧
  (∀ s t u : State, exec .enc32Be s = .next t → exec .enc32Le s = .next u →
    u.output = t.output.reverse) ∧
  (∀ s t u : State, exec .enc64Be s = .next t → Fed t u → ∃ v, exec .dec64Le u = .next v ∧ v.status = .ok ∧
    ∀ i < 8, v.y64.extractLsb' (8 * i) 8 = s.x64.extractLsb' (56 - 8 * i) 8) ∧
  (∀ s t u : State, exec .enc64Le s = .next t → Fed t u → ∃ v, exec .dec64Be u = .next v ∧ v.status = .ok ∧
    ∀ i < 8, v.y64.extractLsb' (8 * i) 8 = s.x64.extractLsb' (56 - 8 * i) 8) ∧
  (∀ s t u : State, exec .enc32Be s = .next t → Fed t u → ∃ v, exec .dec32Le u = .next v ∧ v.status = .ok ∧
    ∀ i < 4, v.y32.extractLsb' (8 * i) 8 = s.x32.extractLsb' (24 - 8 * i) 8) ∧
  (∀ s t u : State, exec .enc32Le s = .next t → Fed t u → ∃ v, exec .dec32Be u = .next v ∧ v.status = .ok ∧
    ∀ i < 4, v.y32.extractLsb' (8 * i) 8 = s.x32.extractLsb' (24 - 8 * i) 8)

/-! ### Address commands (43_address.md) -/

/-- R130: PARSEADDR succeeds exactly on the strings of 7 to 15 characters that are four decimal tokens of value at most
255 cut by three DOTs, and composes the octets, the first in bits 31:24. -/
def Obligations.ParseaddrAcceptsExactlyDottedQuads : Prop :=
  decode 0x08 = .ok .parseaddr ∧
  (∀ (s : State) (t0 t1 t2 t3 : List Byte), 7 ≤ s.ilen → s.ilen ≤ 15 → IsDottedQuad s.input t0 t1 t2 t3 →
    ∃ t, exec .parseaddr s = .next t ∧ t.status = .ok ∧
      (t.y32.extractLsb' 24 8).toNat = decval t0 ∧ (t.y32.extractLsb' 16 8).toNat = decval t1 ∧
      (t.y32.extractLsb' 8 8).toNat = decval t2 ∧ (t.y32.extractLsb' 0 8).toNat = decval t3) ∧
  (∀ s : State, s.ilen < 7 ∨ 15 < s.ilen ∨ (∀ t0 t1 t2 t3, ¬ IsDottedQuad s.input t0 t1 t2 t3) →
    ∃ t, exec .parseaddr s = .next t ∧ t.status = .error .invalidFormat)

/-- R118 with R13: the value of a token is the exact number its digits denote in base ten, of whatever length, leading
zeros adding nothing; a token of a string PARSEADDR looks at has a value of at most 999999999; and PARSEADDR compares the
value itself with 255, so that a token above it ends with InvalidFormat, however many digits it has. -/
def Obligations.TokenValueNeverOverflows : Prop :=
  (∀ d : Byte, isDigit d = true → decval [d] = d.toNat - 0x30) ∧
  (∀ (t : List Byte) (d : Byte), IsDecimalToken t → isDigit d = true →
    decval (t ++ [d]) = 10 * decval t + (d.toNat - 0x30)) ∧
  (∀ t : List Byte, IsDecimalToken t → decval (0x30 :: t) = decval t) ∧
  (∀ s t0 t1 t2 t3 : List Byte, s.length ≤ 15 → s = t0 ++ dot :: (t1 ++ dot :: (t2 ++ dot :: t3)) →
    (∀ t ∈ [t0, t1, t2, t3], IsDecimalToken t) → ∀ t ∈ [t0, t1, t2, t3], t.length ≤ 9 ∧ decval t ≤ 999999999) ∧
  (∀ (s : State) (t0 t1 t2 t3 : List Byte), 7 ≤ s.ilen → s.ilen ≤ 15 →
    s.input = t0 ++ dot :: (t1 ++ dot :: (t2 ++ dot :: t3)) → (∀ t ∈ [t0, t1, t2, t3], IsDecimalToken t) →
    (∃ t ∈ [t0, t1, t2, t3], 255 < decval t) →
    ∃ t, exec .parseaddr s = .next t ∧ t.status = .error .invalidFormat)

/-- R131. -/
def Obligations.FmtaddrGivesCanonicalText : Prop :=
  decode 0x09 = .ok .fmtaddr ∧
  ∀ s : State, ∃ t, exec .fmtaddr s = .next t ∧ t.status = .ok ∧
    t.output = dec (s.x32.extractLsb' 24 8) ++ [dot] ++ dec (s.x32.extractLsb' 16 8) ++ [dot] ++
      dec (s.x32.extractLsb' 8 8) ++ [dot] ++ dec (s.x32.extractLsb' 0 8) ∧
    t.olen = 3 + (dec (s.x32.extractLsb' 24 8)).length + (dec (s.x32.extractLsb' 16 8)).length +
      (dec (s.x32.extractLsb' 8 8)).length + (dec (s.x32.extractLsb' 0 8)).length ∧
    7 ≤ t.olen ∧ t.olen ≤ 15

/-- R14: `dec(o)` is a non-empty string of digits of value `o`, and the shortest such: one digit up to 9, two from 10 to
99, three from 100; and it is the rule's own formula in the hundreds, tens and units. -/
def Obligations.DecIsTheShortestDecimalText : Prop :=
  ∀ o : Byte, (dec o).all isDigit = true ∧ decval (dec o) = o.toNat ∧
    (dec o).length = (if o.toNat ≤ 9 then 1 else if o.toNat ≤ 99 then 2 else 3) ∧
    (∀ t, IsDecimalToken t → decval t = o.toNat → (dec o).length ≤ t.length) ∧
    dec o = (if 0 < o.toNat / 100 then
        [BitVec.ofNat 8 (0x30 + o.toNat / 100), BitVec.ofNat 8 (0x30 + o.toNat / 10 % 10),
          BitVec.ofNat 8 (0x30 + o.toNat % 10)]
      else if 0 < o.toNat / 10 % 10 then [BitVec.ofNat 8 (0x30 + o.toNat / 10 % 10), BitVec.ofNat 8 (0x30 + o.toNat % 10)]
      else [BitVec.ofNat 8 (0x30 + o.toNat % 10)])

/-- R132. -/
def Obligations.Addr2bPacksBigEndian : Prop :=
  decode 0x0A = .ok .addr2b ∧
  ∀ s : State, ∃ t, exec .addr2b s = .next t ∧ t.status = .ok ∧ t.olen = 4 ∧
    t.obufByte 0 = s.x32.extractLsb' 24 8 ∧ t.obufByte 1 = s.x32.extractLsb' 16 8 ∧
    t.obufByte 2 = s.x32.extractLsb' 8 8 ∧ t.obufByte 3 = s.x32.extractLsb' 0 8

/-- R133. -/
def Obligations.B2addrUnpacksBigEndian : Prop :=
  decode 0x0B = .ok .b2addr ∧
  (∀ s : State, s.ilen = 4 → ∃ t, exec .b2addr s = .next t ∧ t.status = .ok ∧
    t.y32 = s.ibufByte 0 ++ s.ibufByte 1 ++ s.ibufByte 2 ++ s.ibufByte 3) ∧
  (∀ s : State, s.ilen ≠ 4 → ∃ t, exec .b2addr s = .next t ∧ t.status = .error .lengthMismatch)

/-- R134, the forms as bytes and from the integer: ADDR2B then B2ADDR, B2ADDR then ADDR2B, and FMTADDR then PARSEADDR give
back what they started from, for every 32-bit address and every four bytes. -/
def Obligations.AddressRoundTrips : Prop :=
  EncodesThenDecodes (fun _ => True) .addr2b .b2addr State.x32 State.y32 ∧
  DecodesThenEncodes 4 .b2addr .addr2b State.y32 State.x32 ∧
  EncodesThenDecodes (fun _ => True) .fmtaddr .parseaddr State.x32 State.y32

/-- R134, the form from the string: for every string PARSEADDR accepts, FMTADDR on the address gives the canonical string
(the same four values, no token with a leading zero), which is the same string exactly when none of
its tokens has a leading zero. -/
def Obligations.AddressTextNormalises : Prop :=
  ∀ (s t : State) (t0 t1 t2 t3 : List Byte), exec .parseaddr s = .next t → t.status = .ok →
    IsDottedQuad s.input t0 t1 t2 t3 → ∀ u : State, u.x32 = t.y32 →
    ∃ v, exec .fmtaddr u = .next v ∧ v.status = .ok ∧
      (∃ c0 c1 c2 c3, IsDottedQuad v.output c0 c1 c2 c3 ∧ (∀ c ∈ [c0, c1, c2, c3], NoLeadingZero c) ∧
        decval c0 = decval t0 ∧ decval c1 = decval t1 ∧ decval c2 = decval t2 ∧ decval c3 = decval t3) ∧
      (v.output = s.input ↔ ∀ t ∈ [t0, t1, t2, t3], NoLeadingZero t)

/-- R135: ADDR2B gives the same bytes as ENC32.BE, and B2ADDR the same value and the same errors as DEC32.BE. -/
def Obligations.AddressCommandsMatchIntegerCommands : Prop :=
  (∀ s t u : State, exec .addr2b s = .next t → exec .enc32Be s = .next u →
    u.status = t.status ∧ u.output = t.output) ∧
  (∀ s t u : State, exec .b2addr s = .next t → exec .dec32Be s = .next u →
    u.status = t.status ∧ (t.status = .ok → u.y32 = t.y32))

/-! ### Port commands (44_port.md) -/

/-- R150; the two readings of the operand agree on every pattern. -/
def Obligations.Port2bPacksLittleEndian : Prop :=
  decode 0x0C = .ok .port2b ∧
  (∀ s : State, s.xp.toNat ≤ 65535 → ∃ t, exec .port2b s = .next t ∧ t.status = .ok ∧ t.olen = 2 ∧
    t.obufByte 0 = s.xp.extractLsb' 0 8 ∧ t.obufByte 1 = s.xp.extractLsb' 8 8) ∧
  (∀ s : State, 65535 < s.xp.toNat → ∃ t, exec .port2b s = .next t ∧ t.status = .error .rangeError) ∧
  (∀ p : BitVec 32, (p.toNat ≤ 65535 ↔ p.extractLsb' 16 16 = 0) ∧
    (p.toNat ≤ 65535 ↔ 0 ≤ p.toInt ∧ p.toInt ≤ 65535))

/-- R151. -/
def Obligations.B2portUnpacksLittleEndian : Prop :=
  decode 0x0D = .ok .b2port ∧
  (∀ s : State, s.ilen = 2 → ∃ t, exec .b2port s = .next t ∧ t.status = .ok ∧
    t.yp.extractLsb' 0 8 = s.ibufByte 0 ∧ t.yp.extractLsb' 8 8 = s.ibufByte 1) ∧
  (∀ s : State, s.ilen ≠ 2 → ∃ t, exec .b2port s = .next t ∧ t.status = .error .lengthMismatch)

/-- R152: the port codec round-trips for every port, and for every two bytes. -/
def Obligations.PortRoundTrips : Prop :=
  EncodesThenDecodes (fun s => s.xp.toNat ≤ 65535) .port2b .b2port State.xp (fun v => v.yp.setWidth 32) ∧
  DecodesThenEncodes 2 .b2port .port2b (fun t => t.yp.setWidth 32) State.xp

/-! ### Endpoint commands (45_endpoint.md) -/

/-- R160. -/
def Obligations.Ep2bPacksTheRecord : Prop :=
  decode 0x0E = .ok .ep2b ∧
  (∀ s : State, s.xp.toNat ≤ 65535 → ∃ t, exec .ep2b s = .next t ∧ t.status = .ok ∧ t.olen = 6 ∧
    t.obufByte 0 = s.x32.extractLsb' 24 8 ∧ t.obufByte 1 = s.x32.extractLsb' 16 8 ∧
    t.obufByte 2 = s.x32.extractLsb' 8 8 ∧ t.obufByte 3 = s.x32.extractLsb' 0 8 ∧
    t.obufByte 4 = s.xp.extractLsb' 0 8 ∧ t.obufByte 5 = s.xp.extractLsb' 8 8) ∧
  (∀ s : State, 65535 < s.xp.toNat → ∃ t, exec .ep2b s = .next t ∧ t.status = .error .rangeError)

/-- R161. -/
def Obligations.B2epSplitsTheRecord : Prop :=
  decode 0x0F = .ok .b2ep ∧
  (∀ s : State, s.ilen = 6 → ∃ t, exec .b2ep s = .next t ∧ t.status = .ok ∧
    t.y32 = s.ibufByte 0 ++ s.ibufByte 1 ++ s.ibufByte 2 ++ s.ibufByte 3 ∧
    t.yp.extractLsb' 0 8 = s.ibufByte 4 ∧ t.yp.extractLsb' 8 8 = s.ibufByte 5) ∧
  (∀ s : State, s.ilen ≠ 6 → ∃ t, exec .b2ep s = .next t ∧ t.status = .error .lengthMismatch)

/-- R162: the endpoint codec round-trips for every address and port, and for every six bytes. -/
def Obligations.EndpointRoundTrips : Prop :=
  EncodesThenDecodes (fun s => s.xp.toNat ≤ 65535) .ep2b .b2ep (fun s => (s.x32, s.xp))
    (fun v => (v.y32, v.yp.setWidth 32)) ∧
  DecodesThenEncodes 6 .b2ep .ep2b (fun t => (t.y32, t.yp.setWidth 32)) (fun u => (u.x32, u.xp))
end

