-- ==== Sys2Proof/Laws/Operands.lean ====
section
/-!
SUPPORT. The laws of the operand forms: lengths, indexing, and how a string is cut at its dots.
-/

namespace Sys2Proof.Machine

@[simp] theorem beBytes_length {w : Nat} (n : Nat) (v : BitVec w) : (beBytes n v).length = n := by simp [beBytes]

@[simp] theorem leBytes_length {w : Nat} (n : Nat) (v : BitVec w) : (leBytes n v).length = n := by simp [leBytes]

@[simp] theorem bytesInOrder_length {w : Nat} (o : Order) (n : Nat) (v : BitVec w) :
    (bytesInOrder o n v).length = n := by cases o <;> simp [bytesInOrder]

@[simp] theorem endpointBytes_length (a : BitVec 32) (p : BitVec 16) : (endpointBytes a p).length = 6 := by
  simp [endpointBytes]

/-- R7, byte by byte. -/
theorem beBytes_getElem {w n i : Nat} (v : BitVec w) (h : i < (beBytes n v).length) :
    (beBytes n v)[i] = v.extractLsb' (8 * (n - 1 - i)) 8 := by simp [beBytes]

/-- R8, byte by byte. -/
theorem leBytes_getElem {w n i : Nat} (v : BitVec w) (h : i < (leBytes n v).length) :
    (leBytes n v)[i] = v.extractLsb' (8 * i) 8 := by simp [leBytes]

/-- R100: the text is twice as long as the bytes. -/
@[simp] theorem hexText_length (bs : List Byte) : (hexText bs).length = 2 * bs.length := by
  induction bs with
  | nil => rfl
  | cons b bs ih => simp only [hexText, List.length_cons, ih]; omega

/-- R101, one pair of characters at a time: both must be hex digits, and the first gives the high nibble. -/
theorem hexBytes_cons_cons {a b : Byte} {rest bs : List Byte} :
    hexBytes (a :: b :: rest) = some bs ↔
      ∃ hi lo tail, hexval a = some hi ∧ hexval b = some lo ∧ hexBytes rest = some tail ∧ bs = (hi ++ lo) :: tail := by
  simp only [hexBytes]
  constructor
  · intro h
    split at h
    · next hi lo tail ha hb hr => exact ⟨hi, lo, tail, ha, hb, hr, (Option.some.inj h).symm⟩
    · simp at h
  · rintro ⟨hi, lo, tail, ha, hb, hr, rfl⟩
    simp [ha, hb, hr]

/-- R101: a string that decodes is twice as long as its bytes. -/
theorem hexBytes_length {s bs : List Byte} (h : hexBytes s = some bs) : s.length = 2 * bs.length := by
  induction s using hexBytes.induct generalizing bs with
  | case1 =>
    obtain rfl : [] = bs := Option.some.inj h
    rfl
  | case2 => simp [hexBytes] at h
  | case3 a b rest _ _ _ _ _ _ ih | case4 a b rest _ ih =>
    obtain ⟨_, _, tail, _, _, hr, rfl⟩ := hexBytes_cons_cons.1 h
    simp only [List.length_cons, ih hr]
    omega

/-- R14: an octet has one to three digits. -/
theorem dec_length (o : Byte) : 1 ≤ (dec o).length ∧ (dec o).length ≤ 3 := by
  simp only [dec]
  split
  · simp
  · split <;> simp

/-- R131: the canonical text is 7 to 15 characters long. -/
theorem addrText_length (a : BitVec 32) : 7 ≤ (addrText a).length ∧ (addrText a).length ≤ 15 := by
  have h0 := dec_length (a.extractLsb' 24 8)
  have h1 := dec_length (a.extractLsb' 16 8)
  have h2 := dec_length (a.extractLsb' 8 8)
  have h3 := dec_length (a.extractLsb' 0 8)
  simp only [addrText, List.length_append, List.length_cons, List.length_nil]
  omega

@[simp] theorem beValue_nil : beValue [] = 0 := rfl

@[simp] theorem leValue_nil : leValue [] = 0 := rfl

theorem beValue_cons (b : Byte) (bs : List Byte) : beValue (b :: bs) = b.toNat * 256 ^ bs.length + beValue bs := rfl

theorem leValue_cons (b : Byte) (bs : List Byte) : leValue (b :: bs) = b.toNat + 256 * leValue bs := rfl

theorem leValue_append (xs ys : List Byte) : leValue (xs ++ ys) = leValue xs + 256 ^ xs.length * leValue ys := by
  induction xs with
  | nil => simp
  | cons x xs ih => simp only [List.cons_append, leValue_cons, ih, List.length_cons, pow_succ]; ring

/-- R9: the big-endian value is the little-endian value of the reversed sequence. -/
theorem beValue_eq_leValue_reverse (bs : List Byte) : beValue bs = leValue bs.reverse := by
  induction bs with
  | nil => rfl
  | cons b bs ih => simp [beValue_cons, leValue_append, leValue_cons, ih, Nat.mul_comm, Nat.add_comm]

/-- R9: byte `i` of a sequence is in bits `8i+7 : 8i` of its little-endian value. -/
theorem leValue_lane {bs : List Byte} {i : Nat} (h : i < bs.length) : leValue bs / 256 ^ i % 256 = bs[i].toNat := by
  induction bs generalizing i with
  | nil => simp at h
  | cons b bs ih =>
    have hb := b.isLt
    cases i with
    | zero => simp only [leValue_cons, pow_zero, Nat.div_one, List.getElem_cons_zero]; omega
    | succ i =>
      have hd : leValue (b :: bs) / 256 = leValue bs := by rw [leValue_cons]; omega
      rw [pow_succ', ← Nat.div_div_eq_div_mul, hd, ih (by simpa using h)]
      rfl

/-- R9: byte `i` of a sequence of `n` is in bits `8(n-1-i)+7 : 8(n-1-i)` of its big-endian value. -/
theorem beValue_lane {bs : List Byte} {i : Nat} (h : i < bs.length) :
    beValue bs / 256 ^ (bs.length - 1 - i) % 256 = bs[i].toNat := by
  rw [beValue_eq_leValue_reverse, leValue_lane (by simp only [List.length_reverse]; omega)]
  simp only [List.getElem_reverse]
  congr 2
  omega

/-- R8: the little-endian sequence is the big-endian one reversed. -/
theorem leBytes_eq_reverse {w : Nat} (n : Nat) (v : BitVec w) : leBytes n v = (beBytes n v).reverse := by
  refine List.ext_getElem (by simp) fun i h1 h2 => ?_
  simp only [leBytes_length] at h1
  rw [List.getElem_reverse, leBytes_getElem, beBytes_getElem]
  simp only [beBytes_length]
  congr 2
  omega

/-- R9: the little-endian value of the `n` little-endian bytes of `v` is `v` cut to `8n` bits. -/
theorem leValue_leBytes {w : Nat} (n : Nat) (v : BitVec w) : leValue (leBytes n v) = v.toNat % 256 ^ n := by
  induction n with
  | zero => simp [leBytes, Nat.mod_one]
  | succ n ih =>
    have hstep : leBytes (n + 1) v = leBytes n v ++ [v.extractLsb' (8 * n) 8] := by
      simp [leBytes, List.range_succ]
    have h256 : (2 : Nat) ^ (8 * n) = 256 ^ n := by rw [pow_mul]; rfl
    rw [hstep, leValue_append, ih, leBytes_length, leValue_cons, leValue_nil, Nat.mod_pow_succ]
    simp [BitVec.extractLsb'_toNat, Nat.shiftRight_eq_div_pow, h256]

/-- R9: the big-endian value of the `n` big-endian bytes of `v` is `v` cut to `8n` bits. -/
theorem beValue_beBytes {w : Nat} (n : Nat) (v : BitVec w) : beValue (beBytes n v) = v.toNat % 256 ^ n := by
  rw [beValue_eq_leValue_reverse, ← leBytes_eq_reverse, leValue_leBytes]

/-- A byte lane of a register holds the matching byte of the number written to it. -/
theorem ofNat_lane {w : Nat} (n i : Nat) (h : 8 * i + 8 ≤ w) :
    ((BitVec.ofNat w n).extractLsb' (8 * i) 8).toNat = n / 256 ^ i % 256 := by
  have h256 : (256 : Nat) ^ i = 2 ^ (8 * i) := by rw [pow_mul]; rfl
  rw [BitVec.extractLsb'_toNat, BitVec.toNat_ofNat, h256, ← Nat.shiftRight_eq_div_pow]
  refine Nat.eq_of_testBit_eq fun k => ?_
  rw [show (256 : Nat) = 2 ^ 8 from rfl, Nat.testBit_mod_two_pow, Nat.testBit_mod_two_pow, Nat.testBit_shiftRight,
    Nat.testBit_shiftRight, Nat.testBit_mod_two_pow]
  by_cases hk : k < 8
  · have : 8 * i + k < w := by omega
    simp [hk, this]
  · simp [hk]

theorem splitDots_ne_nil (s : List Byte) : splitDots s ≠ [] := by
  cases s with
  | nil => simp [splitDots]
  | cons b bs =>
    simp only [splitDots]
    split
    · simp
    · split <;> simp

/-- A string with no DOT is one token. -/
theorem splitDots_no_dot {t : List Byte} (h : dot ∉ t) : splitDots t = [t] := by
  induction t with
  | nil => rfl
  | cons b bs ih =>
    have hb : b ≠ dot := fun e => h (by simp [e])
    simp [splitDots, hb, ih fun hm => h (List.mem_cons_of_mem _ hm)]

/-- The first DOT ends the first token. -/
theorem splitDots_append_dot {t : List Byte} (h : dot ∉ t) (rest : List Byte) :
    splitDots (t ++ dot :: rest) = t :: splitDots rest := by
  induction t with
  | nil => simp [splitDots]
  | cons b bs ih =>
    have hb : b ≠ dot := fun e => h (by simp [e])
    simp [splitDots, hb, ih fun hm => h (List.mem_cons_of_mem _ hm)]

/-- The tokens joined by DOTs are the string again. -/
theorem splitDots_join (s : List Byte) : List.intercalate [dot] (splitDots s) = s := by
  induction s with
  | nil => rfl
  | cons b bs ih =>
    obtain ⟨t, ts, hts⟩ := List.exists_cons_of_ne_nil (splitDots_ne_nil bs)
    rw [hts] at ih
    simp only [splitDots]
    split
    · next hb =>
      subst hb
      rw [hts]
      simpa [List.intercalate] using ih
    · rw [hts]
      cases ts <;> simpa [List.intercalate] using ih

end Sys2Proof.Machine
end

