-- ==== Sys2Proof/Laws/Memory.lean ====
section
/-!
SUPPORT. The laws of the buffers: read after write, the canonical form, and the sequence a command lays out.
-/

namespace Sys2Proof.Machine

@[simp] theorem Memory.read?_nil (i : Nat) : Memory.read? [] i = none := rfl

/-- A read at the index written gives the byte written. -/
@[simp] theorem Memory.read?_write_self (m : Memory) (i : Nat) (b : Byte) : (m.write i b).read? i = some b := by
  induction m with
  | nil => simp [Memory.write, Memory.read?]
  | cons c m ih =>
    obtain ⟨a, x⟩ := c
    simp only [Memory.write]
    split
    · simp [Memory.read?]
    · split
      · simp [Memory.read?]
      · next h => simpa [Memory.read?, Ne.symm h] using ih

/-- A write leaves every other index as it was. -/
theorem Memory.read?_write_ne (m : Memory) {i k : Nat} (b : Byte) (h : k ≠ i) :
    (m.write i b).read? k = m.read? k := by
  induction m with
  | nil => simp [Memory.write, Memory.read?, Ne.symm h]
  | cons c m ih =>
    obtain ⟨a, x⟩ := c
    simp only [Memory.write]
    split
    · simp [Memory.read?, Ne.symm h]
    · split
      · next h' => subst h'; simp [Memory.read?, Ne.symm h]
      · simp [Memory.read?, ih]

/-- The cells of a written buffer are the cell written and cells that were there. -/
theorem Memory.mem_write {m : Memory} {i : Nat} {b : Byte} {c : Host.Cell} (h : c ∈ m.write i b) :
    c = (i, b) ∨ c ∈ m := by
  induction m with
  | nil => simpa [Memory.write] using h
  | cons d m ih =>
    obtain ⟨a, x⟩ := d
    simp only [Memory.write] at h
    split at h
    · simpa using h
    · split at h
      · rcases List.mem_cons.1 h with h | h
        · exact .inl h
        · exact .inr (List.mem_cons_of_mem _ h)
      · rcases List.mem_cons.1 h with h | h
        · exact .inr (by simp [h])
        · exact (ih h).imp id (List.mem_cons_of_mem _)

/-- A write inside the buffer keeps the canonical form. -/
theorem Memory.write_wf {cap : Nat} {m : Memory} {i : Nat} (b : Byte) (hm : Memory.wf cap m) (hi : i < cap) :
    Memory.wf cap (m.write i b) := by
  refine ⟨?_, fun c hc => ?_⟩
  · have hp := hm.1
    clear hm
    induction m with
    | nil => simp [Memory.write]
    | cons d m ih =>
      obtain ⟨a, x⟩ := d
      obtain ⟨hd, ht⟩ := List.pairwise_cons.1 hp
      simp only [Memory.write]
      split
      · next hlt =>
        refine List.pairwise_cons.2 ⟨fun c hc => ?_, hp⟩
        rcases List.mem_cons.1 hc with rfl | hc
        · exact hlt
        · exact lt_trans hlt (hd c hc)
      · split
        · next heq => subst heq; exact List.pairwise_cons.2 ⟨hd, ht⟩
        · refine List.pairwise_cons.2 ⟨fun c hc => ?_, ih ht⟩
          rcases Memory.mem_write hc with rfl | hc
          · show a < i
            omega
          · exact hd c hc
  · rcases Memory.mem_write hc with rfl | hc
    · exact hi
    · exact hm.2 c hc

theorem Memory.nil_wf (cap : Nat) : Memory.wf cap [] := by simp [Memory.wf]

theorem Memory.read?_ofBytesFrom (bs : List Byte) (k i : Nat) :
    (Memory.ofBytesFrom k bs).read? (k + i) = bs[i]? := by
  induction bs generalizing k i with
  | nil => rfl
  | cons b bs ih =>
    cases i with
    | zero => simp [Memory.ofBytesFrom, Memory.read?]
    | succ i =>
      have := ih (k + 1) i
      rw [Nat.add_right_comm, Nat.add_assoc] at this
      simpa [Memory.ofBytesFrom, Memory.read?] using this

/-- R16, R51: after `OUT <- bs` the byte at index `i` is `bs[i]`, and no other is known. -/
@[simp] theorem Memory.read?_ofBytes (bs : List Byte) (i : Nat) : (Memory.ofBytes bs).read? i = bs[i]? := by
  simpa [Memory.ofBytes] using Memory.read?_ofBytesFrom bs 0 i

theorem Memory.mem_ofBytesFrom {bs : List Byte} {k : Nat} {c : Host.Cell} (h : c ∈ Memory.ofBytesFrom k bs) :
    k ≤ c.1 ∧ c.1 < k + bs.length := by
  induction bs generalizing k with
  | nil => simp [Memory.ofBytesFrom] at h
  | cons b bs ih =>
    rcases List.mem_cons.1 h with rfl | h
    · simp
    · have := ih h
      simp only [List.length_cons]
      omega

/-- The indices of a laid-out sequence are below its length. -/
theorem Memory.mem_ofBytes {bs : List Byte} {c : Host.Cell} (h : c ∈ Memory.ofBytes bs) : c.1 < bs.length := by
  have := Memory.mem_ofBytesFrom h
  omega

theorem Memory.ofBytesFrom_pairwise (bs : List Byte) (k : Nat) :
    List.Pairwise (fun p q : Host.Cell => p.1 < q.1) (Memory.ofBytesFrom k bs) := by
  induction bs generalizing k with
  | nil => exact List.Pairwise.nil
  | cons b bs ih =>
    refine List.pairwise_cons.2 ⟨fun c hc => ?_, ih (k + 1)⟩
    have := (Memory.mem_ofBytesFrom hc).1
    show k < c.1
    omega

/-- A sequence that fits is in canonical form. -/
theorem Memory.ofBytes_wf {cap : Nat} {bs : List Byte} (h : bs.length ≤ cap) : Memory.wf cap (Memory.ofBytes bs) :=
  ⟨Memory.ofBytesFrom_pairwise bs 0, fun _ hc => lt_of_lt_of_le (Memory.mem_ofBytes hc) h⟩

theorem Memory.read?_eq_none_of_lt {m : Memory} {i : Nat} (h : ∀ c ∈ m, i < c.1) : m.read? i = none := by
  induction m with
  | nil => rfl
  | cons d m ih =>
    obtain ⟨a, x⟩ := d
    have ha : i < a := h (a, x) (by simp)
    simpa [Memory.read?, Nat.ne_of_gt ha] using ih fun c hc => h c (List.mem_cons_of_mem _ hc)

/-- Two buffers in canonical form with the same known bytes are the same data. -/
theorem Memory.eq_of_read? {cap : Nat} {m n : Memory} (hm : Memory.wf cap m) (hn : Memory.wf cap n)
    (h : ∀ i, m.read? i = n.read? i) : m = n := by
  have pm := hm.1
  have pn := hn.1
  clear hm hn
  induction m generalizing n with
  | nil =>
    cases n with
    | nil => rfl
    | cons d n => obtain ⟨a, x⟩ := d; simpa [Memory.read?] using h a
  | cons c m ih =>
    obtain ⟨a, x⟩ := c
    obtain ⟨hc, hm'⟩ := List.pairwise_cons.1 pm
    cases n with
    | nil => simpa [Memory.read?] using h a
    | cons d n =>
      obtain ⟨b, y⟩ := d
      obtain ⟨hd, hn'⟩ := List.pairwise_cons.1 pn
      have hab : a = b := by
        rcases lt_trichotomy a b with hlt | heq | hlt
        · have h0 := h a
          have : Memory.read? ((b, y) :: n) a = none := Memory.read?_eq_none_of_lt fun e he => by
            rcases List.mem_cons.1 he with rfl | he
            · exact hlt
            · exact lt_trans hlt (hd e he)
          rw [this] at h0
          simp [Memory.read?] at h0
        · exact heq
        · have h0 := h b
          have : Memory.read? ((a, x) :: m) b = none := Memory.read?_eq_none_of_lt fun e he => by
            rcases List.mem_cons.1 he with rfl | he
            · exact hlt
            · exact lt_trans hlt (hc e he)
          rw [this] at h0
          simp [Memory.read?] at h0
      subst hab
      have hxy : x = y := by simpa [Memory.read?] using h a
      subst hxy
      refine congrArg _ (ih (n := n) (fun i => ?_) hm' hn')
      by_cases hi : a = i
      · subst hi
        rw [Memory.read?_eq_none_of_lt hc, Memory.read?_eq_none_of_lt hd]
      · simpa [Memory.read?, hi] using h i

end Sys2Proof.Machine
end

