-- ==== Sys2Proof/Laws/State.lean ====
section
/-!
SUPPORT. One lemma per field per update of State, so that no proof unfolds a record update.
-/

namespace Sys2Proof.Machine

/-! ### setX64 -/

@[simp] theorem State.setX64_x64 (s : State) (v : BitVec 64) :
    (s.setX64 v).x64 = v := rfl

@[simp] theorem State.setX64_x32 (s : State) (v : BitVec 64) :
    (s.setX64 v).x32 = s.x32 := rfl

@[simp] theorem State.setX64_xp (s : State) (v : BitVec 64) :
    (s.setX64 v).xp = s.xp := rfl

@[simp] theorem State.setX64_ilen (s : State) (v : BitVec 64) :
    (s.setX64 v).ilen = s.ilen := rfl

@[simp] theorem State.setX64_ibuf (s : State) (v : BitVec 64) :
    (s.setX64 v).ibuf = s.ibuf := rfl

@[simp] theorem State.setX64_status (s : State) (v : BitVec 64) :
    (s.setX64 v).status = s.status := rfl

@[simp] theorem State.setX64_y64 (s : State) (v : BitVec 64) :
    (s.setX64 v).y64 = s.y64 := rfl

@[simp] theorem State.setX64_y32 (s : State) (v : BitVec 64) :
    (s.setX64 v).y32 = s.y32 := rfl

@[simp] theorem State.setX64_yp (s : State) (v : BitVec 64) :
    (s.setX64 v).yp = s.yp := rfl

@[simp] theorem State.setX64_olen (s : State) (v : BitVec 64) :
    (s.setX64 v).olen = s.olen := rfl

@[simp] theorem State.setX64_obuf (s : State) (v : BitVec 64) :
    (s.setX64 v).obuf = s.obuf := rfl

@[simp] theorem State.setX64_drawn (s : State) (v : BitVec 64) :
    (s.setX64 v).drawn = s.drawn := rfl

@[simp] theorem State.setX64_ibufDraw (s : State) (v : BitVec 64) :
    (s.setX64 v).ibufDraw = s.ibufDraw := rfl

@[simp] theorem State.setX64_pending (s : State) (v : BitVec 64) :
    (s.setX64 v).pending = s.pending := rfl

@[simp] theorem State.setX64_readback (s : State) (v : BitVec 64) :
    (s.setX64 v).readback = s.readback := rfl

/-! ### setX32 -/

@[simp] theorem State.setX32_x64 (s : State) (v : BitVec 32) :
    (s.setX32 v).x64 = s.x64 := rfl

@[simp] theorem State.setX32_x32 (s : State) (v : BitVec 32) :
    (s.setX32 v).x32 = v := rfl

@[simp] theorem State.setX32_xp (s : State) (v : BitVec 32) :
    (s.setX32 v).xp = s.xp := rfl

@[simp] theorem State.setX32_ilen (s : State) (v : BitVec 32) :
    (s.setX32 v).ilen = s.ilen := rfl

@[simp] theorem State.setX32_ibuf (s : State) (v : BitVec 32) :
    (s.setX32 v).ibuf = s.ibuf := rfl

@[simp] theorem State.setX32_status (s : State) (v : BitVec 32) :
    (s.setX32 v).status = s.status := rfl

@[simp] theorem State.setX32_y64 (s : State) (v : BitVec 32) :
    (s.setX32 v).y64 = s.y64 := rfl

@[simp] theorem State.setX32_y32 (s : State) (v : BitVec 32) :
    (s.setX32 v).y32 = s.y32 := rfl

@[simp] theorem State.setX32_yp (s : State) (v : BitVec 32) :
    (s.setX32 v).yp = s.yp := rfl

@[simp] theorem State.setX32_olen (s : State) (v : BitVec 32) :
    (s.setX32 v).olen = s.olen := rfl

@[simp] theorem State.setX32_obuf (s : State) (v : BitVec 32) :
    (s.setX32 v).obuf = s.obuf := rfl

@[simp] theorem State.setX32_drawn (s : State) (v : BitVec 32) :
    (s.setX32 v).drawn = s.drawn := rfl

@[simp] theorem State.setX32_ibufDraw (s : State) (v : BitVec 32) :
    (s.setX32 v).ibufDraw = s.ibufDraw := rfl

@[simp] theorem State.setX32_pending (s : State) (v : BitVec 32) :
    (s.setX32 v).pending = s.pending := rfl

@[simp] theorem State.setX32_readback (s : State) (v : BitVec 32) :
    (s.setX32 v).readback = s.readback := rfl

/-! ### setXp -/

@[simp] theorem State.setXp_x64 (s : State) (v : BitVec 32) :
    (s.setXp v).x64 = s.x64 := rfl

@[simp] theorem State.setXp_x32 (s : State) (v : BitVec 32) :
    (s.setXp v).x32 = s.x32 := rfl

@[simp] theorem State.setXp_xp (s : State) (v : BitVec 32) :
    (s.setXp v).xp = v := rfl

@[simp] theorem State.setXp_ilen (s : State) (v : BitVec 32) :
    (s.setXp v).ilen = s.ilen := rfl

@[simp] theorem State.setXp_ibuf (s : State) (v : BitVec 32) :
    (s.setXp v).ibuf = s.ibuf := rfl

@[simp] theorem State.setXp_status (s : State) (v : BitVec 32) :
    (s.setXp v).status = s.status := rfl

@[simp] theorem State.setXp_y64 (s : State) (v : BitVec 32) :
    (s.setXp v).y64 = s.y64 := rfl

@[simp] theorem State.setXp_y32 (s : State) (v : BitVec 32) :
    (s.setXp v).y32 = s.y32 := rfl

@[simp] theorem State.setXp_yp (s : State) (v : BitVec 32) :
    (s.setXp v).yp = s.yp := rfl

@[simp] theorem State.setXp_olen (s : State) (v : BitVec 32) :
    (s.setXp v).olen = s.olen := rfl

@[simp] theorem State.setXp_obuf (s : State) (v : BitVec 32) :
    (s.setXp v).obuf = s.obuf := rfl

@[simp] theorem State.setXp_drawn (s : State) (v : BitVec 32) :
    (s.setXp v).drawn = s.drawn := rfl

@[simp] theorem State.setXp_ibufDraw (s : State) (v : BitVec 32) :
    (s.setXp v).ibufDraw = s.ibufDraw := rfl

@[simp] theorem State.setXp_pending (s : State) (v : BitVec 32) :
    (s.setXp v).pending = s.pending := rfl

@[simp] theorem State.setXp_readback (s : State) (v : BitVec 32) :
    (s.setXp v).readback = s.readback := rfl

/-! ### setIlen -/

@[simp] theorem State.setIlen_x64 (s : State) (v : Nat) :
    (s.setIlen v).x64 = s.x64 := rfl

@[simp] theorem State.setIlen_x32 (s : State) (v : Nat) :
    (s.setIlen v).x32 = s.x32 := rfl

@[simp] theorem State.setIlen_xp (s : State) (v : Nat) :
    (s.setIlen v).xp = s.xp := rfl

@[simp] theorem State.setIlen_ilen (s : State) (v : Nat) :
    (s.setIlen v).ilen = v := rfl

@[simp] theorem State.setIlen_ibuf (s : State) (v : Nat) :
    (s.setIlen v).ibuf = s.ibuf := rfl

@[simp] theorem State.setIlen_status (s : State) (v : Nat) :
    (s.setIlen v).status = s.status := rfl

@[simp] theorem State.setIlen_y64 (s : State) (v : Nat) :
    (s.setIlen v).y64 = s.y64 := rfl

@[simp] theorem State.setIlen_y32 (s : State) (v : Nat) :
    (s.setIlen v).y32 = s.y32 := rfl

@[simp] theorem State.setIlen_yp (s : State) (v : Nat) :
    (s.setIlen v).yp = s.yp := rfl

@[simp] theorem State.setIlen_olen (s : State) (v : Nat) :
    (s.setIlen v).olen = s.olen := rfl

@[simp] theorem State.setIlen_obuf (s : State) (v : Nat) :
    (s.setIlen v).obuf = s.obuf := rfl

@[simp] theorem State.setIlen_drawn (s : State) (v : Nat) :
    (s.setIlen v).drawn = s.drawn := rfl

@[simp] theorem State.setIlen_ibufDraw (s : State) (v : Nat) :
    (s.setIlen v).ibufDraw = s.ibufDraw := rfl

@[simp] theorem State.setIlen_pending (s : State) (v : Nat) :
    (s.setIlen v).pending = s.pending := rfl

@[simp] theorem State.setIlen_readback (s : State) (v : Nat) :
    (s.setIlen v).readback = s.readback := rfl

/-! ### setIbuf -/

@[simp] theorem State.setIbuf_x64 (s : State) (i : Nat) (b : Byte) :
    (s.setIbuf i b).x64 = s.x64 := rfl

@[simp] theorem State.setIbuf_x32 (s : State) (i : Nat) (b : Byte) :
    (s.setIbuf i b).x32 = s.x32 := rfl

@[simp] theorem State.setIbuf_xp (s : State) (i : Nat) (b : Byte) :
    (s.setIbuf i b).xp = s.xp := rfl

@[simp] theorem State.setIbuf_ilen (s : State) (i : Nat) (b : Byte) :
    (s.setIbuf i b).ilen = s.ilen := rfl

@[simp] theorem State.setIbuf_ibuf (s : State) (i : Nat) (b : Byte) :
    (s.setIbuf i b).ibuf = s.ibuf.write i b := rfl

@[simp] theorem State.setIbuf_status (s : State) (i : Nat) (b : Byte) :
    (s.setIbuf i b).status = s.status := rfl

@[simp] theorem State.setIbuf_y64 (s : State) (i : Nat) (b : Byte) :
    (s.setIbuf i b).y64 = s.y64 := rfl

@[simp] theorem State.setIbuf_y32 (s : State) (i : Nat) (b : Byte) :
    (s.setIbuf i b).y32 = s.y32 := rfl

@[simp] theorem State.setIbuf_yp (s : State) (i : Nat) (b : Byte) :
    (s.setIbuf i b).yp = s.yp := rfl

@[simp] theorem State.setIbuf_olen (s : State) (i : Nat) (b : Byte) :
    (s.setIbuf i b).olen = s.olen := rfl

@[simp] theorem State.setIbuf_obuf (s : State) (i : Nat) (b : Byte) :
    (s.setIbuf i b).obuf = s.obuf := rfl

@[simp] theorem State.setIbuf_drawn (s : State) (i : Nat) (b : Byte) :
    (s.setIbuf i b).drawn = s.drawn := rfl

@[simp] theorem State.setIbuf_ibufDraw (s : State) (i : Nat) (b : Byte) :
    (s.setIbuf i b).ibufDraw = s.ibufDraw := rfl

@[simp] theorem State.setIbuf_pending (s : State) (i : Nat) (b : Byte) :
    (s.setIbuf i b).pending = s.pending := rfl

@[simp] theorem State.setIbuf_readback (s : State) (i : Nat) (b : Byte) :
    (s.setIbuf i b).readback = s.readback := rfl

/-! ### setReadback -/

@[simp] theorem State.setReadback_x64 (s : State) (v : Nat) :
    (s.setReadback v).x64 = s.x64 := rfl

@[simp] theorem State.setReadback_x32 (s : State) (v : Nat) :
    (s.setReadback v).x32 = s.x32 := rfl

@[simp] theorem State.setReadback_xp (s : State) (v : Nat) :
    (s.setReadback v).xp = s.xp := rfl

@[simp] theorem State.setReadback_ilen (s : State) (v : Nat) :
    (s.setReadback v).ilen = s.ilen := rfl

@[simp] theorem State.setReadback_ibuf (s : State) (v : Nat) :
    (s.setReadback v).ibuf = s.ibuf := rfl

@[simp] theorem State.setReadback_status (s : State) (v : Nat) :
    (s.setReadback v).status = s.status := rfl

@[simp] theorem State.setReadback_y64 (s : State) (v : Nat) :
    (s.setReadback v).y64 = s.y64 := rfl

@[simp] theorem State.setReadback_y32 (s : State) (v : Nat) :
    (s.setReadback v).y32 = s.y32 := rfl

@[simp] theorem State.setReadback_yp (s : State) (v : Nat) :
    (s.setReadback v).yp = s.yp := rfl

@[simp] theorem State.setReadback_olen (s : State) (v : Nat) :
    (s.setReadback v).olen = s.olen := rfl

@[simp] theorem State.setReadback_obuf (s : State) (v : Nat) :
    (s.setReadback v).obuf = s.obuf := rfl

@[simp] theorem State.setReadback_drawn (s : State) (v : Nat) :
    (s.setReadback v).drawn = s.drawn := rfl

@[simp] theorem State.setReadback_ibufDraw (s : State) (v : Nat) :
    (s.setReadback v).ibufDraw = s.ibufDraw := rfl

@[simp] theorem State.setReadback_pending (s : State) (v : Nat) :
    (s.setReadback v).pending = s.pending := rfl

@[simp] theorem State.setReadback_readback (s : State) (v : Nat) :
    (s.setReadback v).readback = some v := rfl

/-! ### setPending -/

@[simp] theorem State.setPending_x64 (s : State) (l : List HostAction) :
    (s.setPending l).x64 = s.x64 := rfl

@[simp] theorem State.setPending_x32 (s : State) (l : List HostAction) :
    (s.setPending l).x32 = s.x32 := rfl

@[simp] theorem State.setPending_xp (s : State) (l : List HostAction) :
    (s.setPending l).xp = s.xp := rfl

@[simp] theorem State.setPending_ilen (s : State) (l : List HostAction) :
    (s.setPending l).ilen = s.ilen := rfl

@[simp] theorem State.setPending_ibuf (s : State) (l : List HostAction) :
    (s.setPending l).ibuf = s.ibuf := rfl

@[simp] theorem State.setPending_status (s : State) (l : List HostAction) :
    (s.setPending l).status = s.status := rfl

@[simp] theorem State.setPending_y64 (s : State) (l : List HostAction) :
    (s.setPending l).y64 = s.y64 := rfl

@[simp] theorem State.setPending_y32 (s : State) (l : List HostAction) :
    (s.setPending l).y32 = s.y32 := rfl

@[simp] theorem State.setPending_yp (s : State) (l : List HostAction) :
    (s.setPending l).yp = s.yp := rfl

@[simp] theorem State.setPending_olen (s : State) (l : List HostAction) :
    (s.setPending l).olen = s.olen := rfl

@[simp] theorem State.setPending_obuf (s : State) (l : List HostAction) :
    (s.setPending l).obuf = s.obuf := rfl

@[simp] theorem State.setPending_drawn (s : State) (l : List HostAction) :
    (s.setPending l).drawn = s.drawn := rfl

@[simp] theorem State.setPending_ibufDraw (s : State) (l : List HostAction) :
    (s.setPending l).ibufDraw = s.ibufDraw := rfl

@[simp] theorem State.setPending_pending (s : State) (l : List HostAction) :
    (s.setPending l).pending = l := rfl

@[simp] theorem State.setPending_readback (s : State) (l : List HostAction) :
    (s.setPending l).readback = s.readback := rfl

/-! ### redraw -/

@[simp] theorem State.redraw_x64 (s : State) :
    (s.redraw).x64 = s.x64 := rfl

@[simp] theorem State.redraw_x32 (s : State) :
    (s.redraw).x32 = s.x32 := rfl

@[simp] theorem State.redraw_xp (s : State) :
    (s.redraw).xp = s.xp := rfl

@[simp] theorem State.redraw_ilen (s : State) :
    (s.redraw).ilen = s.ilen := rfl

@[simp] theorem State.redraw_ibuf (s : State) :
    (s.redraw).ibuf = s.ibuf := rfl

@[simp] theorem State.redraw_status (s : State) :
    (s.redraw).status = s.status := rfl

@[simp] theorem State.redraw_y64 (s : State) :
    (s.redraw).y64 = Config.freeY64 (s.drawn + 1) := rfl

@[simp] theorem State.redraw_y32 (s : State) :
    (s.redraw).y32 = Config.freeY32 (s.drawn + 1) := rfl

@[simp] theorem State.redraw_yp (s : State) :
    (s.redraw).yp = Config.freeYp (s.drawn + 1) := rfl

@[simp] theorem State.redraw_olen (s : State) :
    (s.redraw).olen = Config.drawnOlen (s.drawn + 1) := rfl

@[simp] theorem State.redraw_obuf (s : State) :
    (s.redraw).obuf = [] := rfl

@[simp] theorem State.redraw_drawn (s : State) :
    (s.redraw).drawn = s.drawn + 1 := rfl

@[simp] theorem State.redraw_ibufDraw (s : State) :
    (s.redraw).ibufDraw = s.ibufDraw := rfl

@[simp] theorem State.redraw_pending (s : State) :
    (s.redraw).pending = s.pending := rfl

@[simp] theorem State.redraw_readback (s : State) :
    (s.redraw).readback = s.readback := rfl

/-! ### succeeded -/

@[simp] theorem State.succeeded_x64 (r : Response) (s : State) :
    (s.succeeded r).x64 = s.x64 := rfl

@[simp] theorem State.succeeded_x32 (r : Response) (s : State) :
    (s.succeeded r).x32 = s.x32 := rfl

@[simp] theorem State.succeeded_xp (r : Response) (s : State) :
    (s.succeeded r).xp = s.xp := rfl

@[simp] theorem State.succeeded_ilen (r : Response) (s : State) :
    (s.succeeded r).ilen = s.ilen := rfl

@[simp] theorem State.succeeded_ibuf (r : Response) (s : State) :
    (s.succeeded r).ibuf = s.ibuf := rfl

@[simp] theorem State.succeeded_status (r : Response) (s : State) :
    (s.succeeded r).status = .ok := rfl

@[simp] theorem State.succeeded_y64 (r : Response) (s : State) :
    (s.succeeded r).y64 = r.y64.getD (Config.freeY64 (s.drawn + 1)) := rfl

@[simp] theorem State.succeeded_y32 (r : Response) (s : State) :
    (s.succeeded r).y32 = r.y32.getD (Config.freeY32 (s.drawn + 1)) := rfl

@[simp] theorem State.succeeded_yp (r : Response) (s : State) :
    (s.succeeded r).yp = r.yp.getD (Config.freeYp (s.drawn + 1)) := rfl

@[simp] theorem State.succeeded_olen (r : Response) (s : State) :
    (s.succeeded r).olen = (r.out.map List.length).getD (Config.drawnOlen (s.drawn + 1)) := rfl

@[simp] theorem State.succeeded_obuf (r : Response) (s : State) :
    (s.succeeded r).obuf = (r.out.map Memory.ofBytes).getD [] := rfl

@[simp] theorem State.succeeded_drawn (r : Response) (s : State) :
    (s.succeeded r).drawn = s.drawn + 1 := rfl

@[simp] theorem State.succeeded_ibufDraw (r : Response) (s : State) :
    (s.succeeded r).ibufDraw = s.ibufDraw := rfl

@[simp] theorem State.succeeded_pending (r : Response) (s : State) :
    (s.succeeded r).pending = s.pending := rfl

@[simp] theorem State.succeeded_readback (r : Response) (s : State) :
    (s.succeeded r).readback = s.readback := rfl

/-! ### failed -/

@[simp] theorem State.failed_x64 (e : ErrorKind) (s : State) :
    (s.failed e).x64 = s.x64 := rfl

@[simp] theorem State.failed_x32 (e : ErrorKind) (s : State) :
    (s.failed e).x32 = s.x32 := rfl

@[simp] theorem State.failed_xp (e : ErrorKind) (s : State) :
    (s.failed e).xp = s.xp := rfl

@[simp] theorem State.failed_ilen (e : ErrorKind) (s : State) :
    (s.failed e).ilen = s.ilen := rfl

@[simp] theorem State.failed_ibuf (e : ErrorKind) (s : State) :
    (s.failed e).ibuf = s.ibuf := rfl

@[simp] theorem State.failed_status (e : ErrorKind) (s : State) :
    (s.failed e).status = .error e := rfl

@[simp] theorem State.failed_y64 (e : ErrorKind) (s : State) :
    (s.failed e).y64 = Config.freeY64 (s.drawn + 1) := rfl

@[simp] theorem State.failed_y32 (e : ErrorKind) (s : State) :
    (s.failed e).y32 = Config.freeY32 (s.drawn + 1) := rfl

@[simp] theorem State.failed_yp (e : ErrorKind) (s : State) :
    (s.failed e).yp = Config.freeYp (s.drawn + 1) := rfl

@[simp] theorem State.failed_olen (e : ErrorKind) (s : State) :
    (s.failed e).olen = Config.drawnOlen (s.drawn + 1) := rfl

@[simp] theorem State.failed_obuf (e : ErrorKind) (s : State) :
    (s.failed e).obuf = [] := rfl

@[simp] theorem State.failed_drawn (e : ErrorKind) (s : State) :
    (s.failed e).drawn = s.drawn + 1 := rfl

@[simp] theorem State.failed_ibufDraw (e : ErrorKind) (s : State) :
    (s.failed e).ibufDraw = s.ibufDraw := rfl

@[simp] theorem State.failed_pending (e : ErrorKind) (s : State) :
    (s.failed e).pending = s.pending := rfl

@[simp] theorem State.failed_readback (e : ErrorKind) (s : State) :
    (s.failed e).readback = s.readback := rfl

/-! ### hostReset -/

@[simp] theorem State.hostReset_x64 (s : State) :
    (s.hostReset).x64 = 0 := rfl

@[simp] theorem State.hostReset_x32 (s : State) :
    (s.hostReset).x32 = 0 := rfl

@[simp] theorem State.hostReset_xp (s : State) :
    (s.hostReset).xp = 0 := rfl

@[simp] theorem State.hostReset_ilen (s : State) :
    (s.hostReset).ilen = 0 := rfl

@[simp] theorem State.hostReset_ibuf (s : State) :
    (s.hostReset).ibuf = [] := rfl

@[simp] theorem State.hostReset_status (s : State) :
    (s.hostReset).status = .idle := rfl

@[simp] theorem State.hostReset_y64 (s : State) :
    (s.hostReset).y64 = Config.freeY64 (s.drawn + 1) := rfl

@[simp] theorem State.hostReset_y32 (s : State) :
    (s.hostReset).y32 = Config.freeY32 (s.drawn + 1) := rfl

@[simp] theorem State.hostReset_yp (s : State) :
    (s.hostReset).yp = Config.freeYp (s.drawn + 1) := rfl

@[simp] theorem State.hostReset_olen (s : State) :
    (s.hostReset).olen = Config.drawnOlen (s.drawn + 1) := rfl

@[simp] theorem State.hostReset_obuf (s : State) :
    (s.hostReset).obuf = [] := rfl

@[simp] theorem State.hostReset_drawn (s : State) :
    (s.hostReset).drawn = s.drawn + 1 := rfl

@[simp] theorem State.hostReset_ibufDraw (s : State) :
    (s.hostReset).ibufDraw = s.drawn + 1 := rfl

@[simp] theorem State.hostReset_pending (s : State) :
    (s.hostReset).pending = s.pending := rfl

@[simp] theorem State.hostReset_readback (s : State) :
    (s.hostReset).readback = s.readback := rfl

end Sys2Proof.Machine
end

