-- ==== Sys2Proof/Laws/Ops.lean ====
section
/-!
SUPPORT. What each shared operation can do, said once: the buffers as the machine reads them, the two responses, the forms
the instructions share, and `exec` as a whole.
-/

namespace Sys2Proof.Machine

/-! ### The buffers as the machine reads them -/

@[simp] theorem State.input_length (s : State) : s.input.length = s.ilen := by simp [State.input]

@[simp] theorem State.output_length (s : State) : s.output.length = s.olen := by simp [State.output]

theorem State.input_getElem? (s : State) {i : Nat} (h : i < s.ilen) : s.input[i]? = some (s.ibufByte i) := by
  simp [State.input, h]

theorem State.output_getElem? (s : State) {i : Nat} (h : i < s.olen) : s.output[i]? = some (s.obufByte i) := by
  simp [State.output, h]

/-- IBUF reads the same after an update that keeps its bytes and its draw. -/
theorem State.ibufByte_congr {s t : State} (hm : t.ibuf = s.ibuf) (hd : t.ibufDraw = s.ibufDraw) (k : Nat) :
    t.ibufByte k = s.ibufByte k := by simp [State.ibufByte, hm, hd]

/-- R39: a host write of `IBUF[i]` sets byte `i`. -/
@[simp] theorem State.ibufByte_setIbuf_self (s : State) (i : Nat) (b : Byte) : (s.setIbuf i b).ibufByte i = b := by
  simp [State.ibufByte]

/-- R39: a host write of `IBUF[i]` leaves every other byte. -/
theorem State.ibufByte_setIbuf_ne (s : State) {i k : Nat} (b : Byte) (h : k ≠ i) :
    (s.setIbuf i b).ibufByte k = s.ibufByte k := by
  simp [State.ibufByte, Memory.read?_write_ne _ _ h]

@[simp] theorem State.ibufByte_succeeded (r : Response) (s : State) (k : Nat) :
    (s.succeeded r).ibufByte k = s.ibufByte k := rfl

@[simp] theorem State.ibufByte_failed (e : ErrorKind) (s : State) (k : Nat) :
    (s.failed e).ibufByte k = s.ibufByte k := rfl

/-- R91: an output byte below the length of the sequence is the sequence's. -/
theorem State.obufByte_succeeded_out {r : Response} {bs : List Byte} (s : State) (h : r.out = some bs) {k : Nat}
    (hk : k < bs.length) : (s.succeeded r).obufByte k = bs[k] := by
  simp [State.obufByte, h, hk]

/-- U2: an output byte at or beyond the length of the sequence is the free value of the new draw. -/
theorem State.obufByte_succeeded_tail {r : Response} {bs : List Byte} (s : State) (h : r.out = some bs) {k : Nat}
    (hk : bs.length ≤ k) : (s.succeeded r).obufByte k = Config.freeObuf (s.drawn + 1) k := by
  simp [State.obufByte, h, hk]

/-- R91: with no sequence produced, every output byte is the free value of the new draw. -/
theorem State.obufByte_succeeded_none {r : Response} (s : State) (h : r.out = none) (k : Nat) :
    (s.succeeded r).obufByte k = Config.freeObuf (s.drawn + 1) k := by
  simp [State.obufByte, h]

/-- R92: after an error every output byte is the free value of the new draw. -/
@[simp] theorem State.obufByte_failed (e : ErrorKind) (s : State) (k : Nat) :
    (s.failed e).obufByte k = Config.freeObuf (s.drawn + 1) k := rfl

/-- R91: the output sequence of a success response is the sequence produced. -/
theorem State.output_succeeded {r : Response} {bs : List Byte} (s : State) (h : r.out = some bs) :
    (s.succeeded r).output = bs := by
  refine List.ext_getElem? fun k => ?_
  by_cases hk : k < bs.length
  · rw [State.output_getElem? _ (by simpa [h] using hk), State.obufByte_succeeded_out s h hk,
      List.getElem?_eq_getElem hk]
  · rw [List.getElem?_eq_none (by simpa [h] using hk), List.getElem?_eq_none (by simpa using hk)]

/-! ### The shared forms -/

/-- What `emit` does: always a success response with the sequence. -/
theorem emit_eq (bs : List Byte) (s : State) : emit bs s = .next (s.succeeded { out := some bs }) := rfl

/-- What `decodeExact` does when the length is right. -/
theorem decodeExact_ok {n : Nat} {f : List Byte → Response} {s : State} (h : s.ilen = n) :
    decodeExact n f s = .next (s.succeeded (f s.input)) := by simp [decodeExact, h, succeed]

/-- What `decodeExact` does when the length is wrong. -/
theorem decodeExact_mismatch {n : Nat} {f : List Byte → Response} {s : State} (h : s.ilen ≠ n) :
    decodeExact n f s = .next (s.failed .lengthMismatch) := by simp [decodeExact, h, raiseError]

/-- What `withPort` does when the port is in range. -/
theorem withPort_ok {f : BitVec 16 → List Byte} {s : State} (h : s.xp.toNat ≤ 65535) :
    withPort f s = .next (s.succeeded { out := some (f (s.xp.extractLsb' 0 16)) }) := by
  simp [withPort, portInRange, h, emit, succeed]

/-- What `withPort` does when the port is out of range. -/
theorem withPort_range {f : BitVec 16 → List Byte} {s : State} (h : 65535 < s.xp.toNat) :
    withPort f s = .next (s.failed .rangeError) := by
  simp [withPort, portInRange, Nat.not_le.2 h, raiseError]

/-- What `perform` can refuse: nothing but an index outside a buffer and a length ILEN cannot hold. -/
theorem perform_refused {a : HostAction} {s : State} {r : Refusal} (h : perform a s = .refused r)
    (hc : ∀ c, a ≠ .writeCmd c) :
    (∃ v, a = .writeIlen v ∧ Config.inCap < v ∧ r = .lengthOutsideRegister) ∨
    (∃ i b, a = .writeIbuf i b ∧ Config.inCap ≤ i ∧ r = .indexOutsideBuffer) ∨
    (∃ q, a = .read q ∧ readableExists q = false ∧ r = .indexOutsideBuffer) := by
  cases a with
  | writeX64 v => simp [perform] at h
  | writeX32 v => simp [perform] at h
  | writeXp v => simp [perform] at h
  | writeIlen v =>
    simp only [perform] at h
    split at h
    · simp at h
    · exact .inl ⟨v, rfl, by omega, by simpa using h.symm⟩
  | writeIbuf i b =>
    simp only [perform] at h
    split at h
    · simp at h
    · exact .inr (.inl ⟨i, b, rfl, by omega, by simpa using h.symm⟩)
  | writeCmd c => exact absurd rfl (hc c)
  | read q =>
    simp only [perform] at h
    split at h
    · simp at h
    · exact .inr (.inr ⟨q, rfl, by simp_all, by simpa using h.symm⟩)
  | reset => simp [perform] at h

end Sys2Proof.Machine
end

