-- ==== Sys2Proof/Laws/Exec.lean ====
section
/-!
SUPPORT. What `exec` can do, said once for all nineteen commands: it ends with a success response that assigns exactly the
items R20 lists for the command, or with the one error R171 gives it.
-/

namespace Sys2Proof.Machine

/-- The response `r` assigns exactly the items that command `i` defines (10_state.md R20), and a sequence it produces fits
OBUF whenever the input fits IBUF (00_scope.md R4). -/
structure Assigns (i : Instr) (s : State) (r : Response) : Prop where
  y64 : r.y64.isSome = definesY64 i
  y32 : r.y32.isSome = definesY32 i
  yp : r.yp.isSome = definesYp i
  out : r.out.isSome = definesOutput i
  fits : ∀ bs, r.out = some bs → s.ilen ≤ Config.inCap → bs.length ≤ Config.outCap

theorem decodeExact_cases (i : Instr) (n : Nat) (f : List Byte → Response) (s : State)
    (he : errorOf i = some .lengthMismatch) (hf : Assigns i s (f s.input)) :
    (∃ r, Assigns i s r ∧ decodeExact n f s = .next (s.succeeded r)) ∨
    (∃ e, errorOf i = some e ∧ decodeExact n f s = .next (s.failed e)) := by
  by_cases h : s.ilen = n
  · exact .inl ⟨_, hf, decodeExact_ok h⟩
  · exact .inr ⟨_, he, decodeExact_mismatch h⟩

theorem withPort_cases (i : Instr) (f : BitVec 16 → List Byte) (s : State) (he : errorOf i = some .rangeError)
    (hf : ∀ p, Assigns i s { out := some (f p) }) :
    (∃ r, Assigns i s r ∧ withPort f s = .next (s.succeeded r)) ∨
    (∃ e, errorOf i = some e ∧ withPort f s = .next (s.failed e)) := by
  by_cases h : s.xp.toNat ≤ 65535
  · exact .inl ⟨_, hf _, withPort_ok h⟩
  · exact .inr ⟨_, he, withPort_range (Nat.lt_of_not_le h)⟩

theorem assigns_out (i : Instr) (s : State) (bs : List Byte) (h64 : definesY64 i = false) (h32 : definesY32 i = false)
    (hp : definesYp i = false) (ho : definesOutput i = true)
    (hb : s.ilen ≤ Config.inCap → bs.length ≤ Config.outCap) : Assigns i s { out := some bs } :=
  ⟨by simp [h64], by simp [h32], by simp [hp], by simp [ho], fun _ e => by
    obtain rfl := Option.some.inj e
    exact hb⟩

/-- The inversion lemma of `exec`. -/
theorem exec_cases (i : Instr) (s : State) :
    (∃ r, Assigns i s r ∧ exec i s = .next (s.succeeded r)) ∨
    (∃ e, errorOf i = some e ∧ exec i s = .next (s.failed e)) := by
  have hcap : Config.outCap = 2 * Config.inCap := rfl
  have h30 := Config.outCap_ge
  have one : ∀ r : Response, (∀ bs, r.out ≠ some bs) →
      ∀ bs, r.out = some bs → s.ilen ≤ Config.inCap → bs.length ≤ Config.outCap := fun r h bs e => absurd e (h bs)
  cases i with
  | hexenc =>
    refine .inl ⟨_, assigns_out _ s (hexText s.input) rfl rfl rfl rfl (fun h => ?_), rfl⟩
    rw [hexText_length, State.input_length]
    omega
  | hexdec =>
    show (∃ r, _ ∧ execHexdec s = _) ∨ (∃ e, _ ∧ execHexdec s = _)
    simp only [execHexdec]
    cases hx : hexBytes s.input with
    | none => exact .inr ⟨_, rfl, rfl⟩
    | some bs =>
      refine .inl ⟨_, assigns_out _ s bs rfl rfl rfl rfl (fun h => ?_), rfl⟩
      have := hexBytes_length hx
      rw [State.input_length] at this
      omega
  | enc64Be => exact .inl ⟨_, assigns_out _ s _ rfl rfl rfl rfl (fun _ => by simp; omega), rfl⟩
  | enc64Le => exact .inl ⟨_, assigns_out _ s _ rfl rfl rfl rfl (fun _ => by simp; omega), rfl⟩
  | dec64Be => exact decodeExact_cases _ _ _ s rfl ⟨rfl, rfl, rfl, rfl, one _ (by simp [y64InOrder])⟩
  | dec64Le => exact decodeExact_cases _ _ _ s rfl ⟨rfl, rfl, rfl, rfl, one _ (by simp [y64InOrder])⟩
  | enc32Be => exact .inl ⟨_, assigns_out _ s _ rfl rfl rfl rfl (fun _ => by simp; omega), rfl⟩
  | enc32Le => exact .inl ⟨_, assigns_out _ s _ rfl rfl rfl rfl (fun _ => by simp; omega), rfl⟩
  | dec32Be => exact decodeExact_cases _ _ _ s rfl ⟨rfl, rfl, rfl, rfl, one _ (by simp [y32InOrder])⟩
  | dec32Le => exact decodeExact_cases _ _ _ s rfl ⟨rfl, rfl, rfl, rfl, one _ (by simp [y32InOrder])⟩
  | sdc32 =>
    show (∃ r, _ ∧ execSdc32 s = _) ∨ (∃ e, _ ∧ execSdc32 s = _)
    simp only [execSdc32]
    split
    · exact .inl ⟨_, ⟨rfl, rfl, rfl, rfl, one _ (by simp)⟩, rfl⟩
    · exact .inr ⟨_, rfl, rfl⟩
  | parseaddr =>
    show (∃ r, _ ∧ execParseaddr s = _) ∨ (∃ e, _ ∧ execParseaddr s = _)
    simp only [execParseaddr]
    split
    · exact .inl ⟨_, ⟨rfl, rfl, rfl, rfl, one _ (by simp)⟩, rfl⟩
    · exact .inr ⟨_, rfl, rfl⟩
  | fmtaddr =>
    exact .inl ⟨_, assigns_out _ s _ rfl rfl rfl rfl (fun _ => by have := addrText_length s.x32; omega), rfl⟩
  | addr2b => exact .inl ⟨_, assigns_out _ s _ rfl rfl rfl rfl (fun _ => by simp; omega), rfl⟩
  | b2addr => exact decodeExact_cases _ _ _ s rfl ⟨rfl, rfl, rfl, rfl, one _ (by simp [y32InOrder])⟩
  | port2b => exact withPort_cases _ _ s rfl fun p => assigns_out _ s _ rfl rfl rfl rfl (fun _ => by simp; omega)
  | b2port => exact decodeExact_cases _ _ _ s rfl ⟨rfl, rfl, rfl, rfl, one _ (by simp [portResponse])⟩
  | ep2b => exact withPort_cases _ _ s rfl fun p => assigns_out _ s _ rfl rfl rfl rfl (fun _ => by simp; omega)
  | b2ep => exact decodeExact_cases _ _ _ s rfl ⟨rfl, rfl, rfl, rfl, one _ (by simp [endpointResponse])⟩

/-- What issuing a command word can do: run the decoded instruction, or raise IllegalCommand. -/
theorem issue_cases (c : Byte) (s : State) :
    (∃ i, decode c = .ok i ∧ issue c s = exec i s) ∨
    (∃ e, decode c = .error e ∧ issue c s = .next (s.failed .illegalCommand)) := by
  simp only [issue]
  cases h : decode c with
  | ok i => exact .inl ⟨i, rfl, rfl⟩
  | error e => exact .inr ⟨e, rfl, rfl⟩

end Sys2Proof.Machine
end

