-- ==== Sys2Proof/Laws/PerInstr.lean ====
section
/-!
SUPPORT. The family of statements made once per instruction: its word carries exactly its fields, and those are legal
(30_encoding.md R70 to R72).
-/

namespace Sys2Proof.Laws.WordFields

/-- The word of `i`, cut into its fields, gives the reserved bits zero, the order tag and the number of `i`, and these pass
every check of R75. -/
def Statement (i : Instr) : Prop := fieldsOf (encode i) = i.fields ∧ i.fields.wellFormed = true

theorem hexenc : Statement .hexenc := by unfold Statement; decide

theorem hexdec : Statement .hexdec := by unfold Statement; decide

theorem enc64Be : Statement .enc64Be := by unfold Statement; decide

theorem enc64Le : Statement .enc64Le := by unfold Statement; decide

theorem dec64Be : Statement .dec64Be := by unfold Statement; decide

theorem dec64Le : Statement .dec64Le := by unfold Statement; decide

theorem enc32Be : Statement .enc32Be := by unfold Statement; decide

theorem enc32Le : Statement .enc32Le := by unfold Statement; decide

theorem dec32Be : Statement .dec32Be := by unfold Statement; decide

theorem dec32Le : Statement .dec32Le := by unfold Statement; decide

theorem sdc32 : Statement .sdc32 := by unfold Statement; decide

theorem parseaddr : Statement .parseaddr := by unfold Statement; decide

theorem fmtaddr : Statement .fmtaddr := by unfold Statement; decide

theorem addr2b : Statement .addr2b := by unfold Statement; decide

theorem b2addr : Statement .b2addr := by unfold Statement; decide

theorem port2b : Statement .port2b := by unfold Statement; decide

theorem b2port : Statement .b2port := by unfold Statement; decide

theorem ep2b : Statement .ep2b := by unfold Statement; decide

theorem b2ep : Statement .b2ep := by unfold Statement; decide

end Sys2Proof.Laws.WordFields
end

