-- ==== Sys2Proof/Tests/Slice0.lean ====
section
/-!
SUPPORT. The model's own tests. Expected results come from spec/95_test_vectors.md (the ids S.. and V-.. in the comments)
and from the tables of spec/30_encoding.md, not from the model. The last part holds the witnesses: for each statement with
hypotheses, a concrete state and operands that meet them together, at the boundaries of its clauses.
-/

namespace Sys2Proof.Tests

open Sys2Proof.Machine

/-- The reset state with an input written. -/
def loaded (bs : List Byte) : State := { State.reset with ilen := bs.length, ibuf := Memory.ofBytes bs }

/-- The outcome is a next state for which `p` holds. -/
def nextWith (r : Result) (p : State → Bool) : Bool :=
  match r with
  | .next t => p t
  | .fault _ => false
  | .refused _ => false

/-- The reset state with an operand in X64. -/
def withX64 (v : BitVec 64) : State := { State.reset with x64 := v }

/-- The reset state with an operand in X32. -/
def withX32 (v : BitVec 32) : State := { State.reset with x32 := v }

/-- The reset state with a port operand. -/
def withXp (v : BitVec 32) : State := { State.reset with xp := v }

/-- The outcome is OK with this output. -/
def gives (r : Result) (bs : List Byte) : Bool := nextWith r fun t => t.status = .ok && t.output = bs

/-- The outcome is this error. -/
def errs (r : Result) (e : ErrorKind) : Bool := nextWith r fun t => t.status = .error e

/-! ### Well-formedness: an ill-formed term for each check (R75) -/

theorem smoke_reserved_bits : Fields.wellFormed ⟨0b01, 0b00, 0x1⟩ = false := by decide

theorem smoke_reserved_order : Fields.wellFormed ⟨0b00, 0b11, 0x3⟩ = false := by decide

theorem smoke_reserved_opcode : Fields.wellFormed ⟨0b00, 0b01, 0x0⟩ = false := by decide

theorem smoke_unexpected_tag : Fields.wellFormed ⟨0b00, 0b01, 0x1⟩ = false := by decide

theorem smoke_missing_tag : Fields.wellFormed ⟨0b00, 0b00, 0x3⟩ = false := by decide

theorem smoke_legal : Fields.wellFormed ⟨0b00, 0b01, 0x3⟩ = true := by decide

/-! ### Decoding: each word written out from R74 as RSV ORD OPC -/

theorem test_decode_hexenc : decode 0b00000001 = .ok .hexenc ∧ encode .hexenc = 0b00000001 := by decide

theorem test_decode_hexdec : decode 0b00000010 = .ok .hexdec ∧ encode .hexdec = 0b00000010 := by decide

theorem test_decode_enc64Be : decode 0b00010011 = .ok .enc64Be ∧ encode .enc64Be = 0b00010011 := by decide

theorem test_decode_enc64Le : decode 0b00100011 = .ok .enc64Le ∧ encode .enc64Le = 0b00100011 := by decide

theorem test_decode_dec64Be : decode 0b00010100 = .ok .dec64Be ∧ encode .dec64Be = 0b00010100 := by decide

theorem test_decode_dec64Le : decode 0b00100100 = .ok .dec64Le ∧ encode .dec64Le = 0b00100100 := by decide

theorem test_decode_enc32Be : decode 0b00010101 = .ok .enc32Be ∧ encode .enc32Be = 0b00010101 := by decide

theorem test_decode_enc32Le : decode 0b00100101 = .ok .enc32Le ∧ encode .enc32Le = 0b00100101 := by decide

theorem test_decode_dec32Be : decode 0b00010110 = .ok .dec32Be ∧ encode .dec32Be = 0b00010110 := by decide

theorem test_decode_dec32Le : decode 0b00100110 = .ok .dec32Le ∧ encode .dec32Le = 0b00100110 := by decide

theorem test_decode_sdc32 : decode 0b00000111 = .ok .sdc32 ∧ encode .sdc32 = 0b00000111 := by decide

theorem test_decode_parseaddr : decode 0b00001000 = .ok .parseaddr ∧ encode .parseaddr = 0b00001000 := by decide

theorem test_decode_fmtaddr : decode 0b00001001 = .ok .fmtaddr ∧ encode .fmtaddr = 0b00001001 := by decide

theorem test_decode_addr2b : decode 0b00001010 = .ok .addr2b ∧ encode .addr2b = 0b00001010 := by decide

theorem test_decode_b2addr : decode 0b00001011 = .ok .b2addr ∧ encode .b2addr = 0b00001011 := by decide

theorem test_decode_port2b : decode 0b00001100 = .ok .port2b ∧ encode .port2b = 0b00001100 := by decide

theorem test_decode_b2port : decode 0b00001101 = .ok .b2port ∧ encode .b2port = 0b00001101 := by decide

theorem test_decode_ep2b : decode 0b00001110 = .ok .ep2b ∧ encode .ep2b = 0b00001110 := by decide

theorem test_decode_b2ep : decode 0b00001111 = .ok .b2ep ∧ encode .b2ep = 0b00001111 := by decide

/-- V-IC-1 to V-IC-24. -/
theorem test_illegal_words :
    ([0x00, 0x10, 0x20, 0x03, 0x04, 0x05, 0x06, 0x11, 0x12, 0x17, 0x1A, 0x2C, 0x2E, 0x1F, 0x30, 0x33, 0x3F, 0x40, 0x41,
      0x53, 0x81, 0x93, 0xC1, 0xFF] : List Byte).all (fun c => errs (issue c (withXp 65536)) .illegalCommand) = true := by
  decide

/-! ### Commands: vectors of 95_test_vectors.md -/

/-- V-HE-7. -/
theorem test_hexenc_order : gives (exec .hexenc (loaded [0x9A, 0xF0, 0x0F])) [0x39, 0x41, 0x46, 0x30, 0x30, 0x46] = true := by decide

/-- V-HE-8: OBUF exactly full at LENW = 4. -/
theorem test_hexenc_full : gives (exec .hexenc (loaded
    [0x00, 0x11, 0x22, 0x33, 0x44, 0x55, 0x66, 0x77, 0x88, 0x99, 0xAA, 0xBB, 0xCC, 0xDD, 0xEE]))
    [0x30, 0x30, 0x31, 0x31, 0x32, 0x32, 0x33, 0x33, 0x34, 0x34, 0x35, 0x35, 0x36, 0x36, 0x37, 0x37, 0x38, 0x38, 0x39, 0x39, 0x41, 0x41, 0x42, 0x42, 0x43, 0x43, 0x44, 0x44, 0x45, 0x45] = true := by decide

/-- V-HD-10: the six ends of the accepted ranges. -/
theorem test_hexdec_ends : gives (exec .hexdec (loaded [0x30, 0x39, 0x61, 0x66, 0x41, 0x46])) [0x09, 0xAF, 0xAF] = true := by decide

/-- V-HD-12, V-HD-14 to V-HD-24, V-HD-27: odd, and the bytes just outside the accepted ranges. -/
theorem test_hexdec_rejects : ([[0x41], [0x30, 0x67], [0x30, 0x47], [0x67, 0x30], [0x20, 0x30], [0x30, 0x78],
    [0x40, 0x41], [0x60, 0x61], [0x2F, 0x30], [0x3A, 0x30], [0x30, 0x3A], [0x80, 0x30], [0x30, 0x00]] : List (List Byte)).all
    (fun bs => errs (exec .hexdec (loaded bs)) .invalidFormat) = true := by decide

/-- S12. -/
theorem test_enc64Be : gives (exec .enc64Be (withX64 1)) [0x00, 0x00, 0x00, 0x00, 0x00, 0x00, 0x00, 0x01] = true := by decide

/-- V-E64-6. -/
theorem test_enc64Le : gives (exec .enc64Le (withX64 0xDEADBEEF)) [0xEF, 0xBE, 0xAD, 0xDE, 0x00, 0x00, 0x00, 0x00] = true := by decide

/-- V-D64-2. -/
theorem test_dec64Be : nextWith (exec .dec64Be (loaded [0x80, 0x00, 0x00, 0x00, 0x00, 0x00, 0x00, 0x01]))
    fun t => t.status = .ok && t.y64 = 0x8000000000000001 = true := by decide

/-- V-D64-1. -/
theorem test_dec64Le : nextWith (exec .dec64Le (loaded [0x01, 0x02, 0x03, 0x04, 0x05, 0x06, 0x07, 0x08]))
    fun t => t.status = .ok && t.y64 = 0x0807060504030201 = true := by decide

/-- V-D64-9. -/
theorem test_dec64_nine_bytes : errs (exec .dec64Be (loaded [0x01, 0x02, 0x03, 0x04, 0x05, 0x06, 0x07, 0x08, 0x09])) .lengthMismatch = true := by decide

/-- V-E32-2. -/
theorem test_enc32Be : gives (exec .enc32Be (withX32 0x11223344)) [0x11, 0x22, 0x33, 0x44] = true := by decide

/-- V-E32-4. -/
theorem test_enc32Le : gives (exec .enc32Le (withX32 0x80000000)) [0x00, 0x00, 0x00, 0x80] = true := by decide

/-- V-D32-2. -/
theorem test_dec32Be : nextWith (exec .dec32Be (loaded [0xFF, 0x00, 0x00, 0x00])) fun t => t.status = .ok && t.y32 = 0xFF000000 = true := by decide

/-- V-D32-1. -/
theorem test_dec32Le : nextWith (exec .dec32Le (loaded [0x11, 0x22, 0x33, 0x44])) fun t => t.status = .ok && t.y32 = 0x44332211 = true := by decide

/-- V-SD-7. -/
theorem test_sdc32_lower : nextWith (exec .sdc32 (withX64 0xFFFFFFFF80000000)) fun t => t.status = .ok && t.y32 = 0x80000000 = true := by decide

/-- V-SD-4, V-SD-5, V-SD-8, V-SD-10, V-SD-13, V-SD-14. -/
theorem test_sdc32_range : ([0x80000000, 0xFFFFFFFF, 0xFFFFFFFF7FFFFFFF, 0x8000000000000000, 0x100000001,
    0xFFFFFFFE80000000] : List (BitVec 64)).all (fun v => errs (exec .sdc32 (withX64 v)) .rangeError) = true := by decide

/-- V-PA-2, V-PA-14, V-PA-15, V-PA-39, V-PA-49. -/
theorem test_parseaddr_accepts : ([([0x31, 0x39, 0x32, 0x2E, 0x31, 0x36, 0x38, 0x2E, 0x31, 0x2E, 0x31, 0x30], 0xC0A8010A),
    ([0x30, 0x30, 0x30, 0x30, 0x30, 0x30, 0x30, 0x30, 0x31, 0x2E, 0x31, 0x2E, 0x31, 0x2E, 0x31], 0x01010101),
    ([0x30, 0x30, 0x30, 0x30, 0x30, 0x32, 0x35, 0x35, 0x2E, 0x30, 0x2E, 0x30, 0x2E, 0x30, 0x31], 0xFF000001),
    ([0x30, 0x31, 0x30, 0x2E, 0x30, 0x31, 0x30, 0x2E, 0x30, 0x31, 0x30, 0x2E, 0x30, 0x31, 0x30], 0x0A0A0A0A),
    ([0x30, 0x2E, 0x30, 0x2E, 0x30, 0x2E, 0x30, 0x32, 0x35, 0x35], 0x000000FF)] : List (List Byte × BitVec 32)).all
    (fun p => nextWith (exec .parseaddr (loaded p.1)) fun t => t.status = .ok && t.y32 = p.2) = true := by decide

/-- V-PA-5, V-PA-16, V-PA-18 to V-PA-21, V-PA-25, V-PA-28 to V-PA-30, V-PA-43. -/
theorem test_parseaddr_rejects : ([[0x31, 0x2E, 0x32, 0x2E, 0x33, 0x2E, 0x32, 0x35, 0x36],
    [0x39, 0x39, 0x39, 0x39, 0x39, 0x39, 0x39, 0x39, 0x39, 0x2E, 0x31, 0x2E, 0x31, 0x2E, 0x31], [0x31, 0x2E, 0x32, 0x2E, 0x33, 0x2E],
    [0x31, 0x2E, 0x32, 0x2E, 0x2E, 0x33, 0x34], [0x2E, 0x2E, 0x2E, 0x31, 0x32, 0x33, 0x34],
    [0x2E, 0x31, 0x2E, 0x32, 0x2E, 0x33, 0x2E, 0x34], [0x31, 0x2E, 0x32, 0x2E, 0x33, 0x2E, 0x2D, 0x34],
    [0x20, 0x31, 0x2E, 0x32, 0x2E, 0x33, 0x2E, 0x34], [0x31, 0x2C, 0x32, 0x2C, 0x33, 0x2C, 0x34],
    [0x31, 0x32, 0x33, 0x34, 0x35, 0x36, 0x37], [0x31, 0x2E, 0x32, 0x2E, 0x33, 0x2E, 0x34, 0x2E, 0x35]] : List (List Byte)).all
    (fun bs => errs (exec .parseaddr (loaded bs)) .invalidFormat) = true := by decide

/-- V-FA-8: 3, 2, 2, 1 digits. -/
theorem test_fmtaddr_digits : gives (exec .fmtaddr (withX32 0x64630A09)) [0x31, 0x30, 0x30, 0x2E, 0x39, 0x39, 0x2E, 0x31, 0x30, 0x2E, 0x39] = true := by decide

/-- V-FA-9. -/
theorem test_fmtaddr_zero_ends : gives (exec .fmtaddr (withX32 0x000A6400)) [0x30, 0x2E, 0x31, 0x30, 0x2E, 0x31, 0x30, 0x30, 0x2E, 0x30] = true := by decide

/-- V-AB-3. -/
theorem test_addr2b : gives (exec .addr2b (withX32 0xC0A8010A)) [0xC0, 0xA8, 0x01, 0x0A] = true := by decide

/-- V-BA-3. -/
theorem test_b2addr : nextWith (exec .b2addr (loaded [0xC0, 0xA8, 0x01, 0x0A])) fun t => t.status = .ok && t.y32 = 0xC0A8010A = true := by decide

/-- V-BA-9. -/
theorem test_b2addr_six_bytes : errs (exec .b2addr (loaded [0xC0, 0xA8, 0x01, 0x0A, 0x90, 0x1F])) .lengthMismatch = true := by decide

/-- V-PB-6. -/
theorem test_port2b : gives (exec .port2b (withXp 0x100)) [0x00, 0x01] = true := by decide

/-- V-PB-12: the low 16 bits are not emitted. -/
theorem test_port2b_range : errs (exec .port2b (withXp 0x11F90)) .rangeError = true := by decide

/-- V-BP-2. -/
theorem test_b2port : nextWith (exec .b2port (loaded [0x00, 0x01])) fun t => t.status = .ok && t.yp = 0x0100 = true := by decide

/-- V-BP-8. -/
theorem test_b2port_one_byte : errs (exec .b2port (loaded [0x01])) .lengthMismatch = true := by decide

/-- V-EB-5. -/
theorem test_ep2b : gives (exec .ep2b ((withX32 0x01020304).setXp 0x0506)) [0x01, 0x02, 0x03, 0x04, 0x06, 0x05] = true := by decide

/-- V-EB-8. -/
theorem test_ep2b_range : errs (exec .ep2b ((withX32 0x01020304).setXp 0x10506)) .rangeError = true := by decide

/-- V-BE-2. -/
theorem test_b2ep : nextWith (exec .b2ep (loaded [0x01, 0x02, 0x03, 0x04, 0x05, 0x06]))
    fun t => t.status = .ok && t.y32 = 0x01020304 && t.yp = 0x0605 = true := by decide

/-- V-BE-11. -/
theorem test_b2ep_eight_bytes : errs (exec .b2ep (loaded [0x01, 0x02, 0x03, 0x04, 0x05, 0x06, 0x07, 0x08])) .lengthMismatch = true := by decide

/-! ### Steps -/

/-- V-RS-3: the first command after reset. -/
theorem test_fetch_runs_first : gives (step (State.reset.withFetchWord 8 0x09)) [0x30, 0x2E, 0x30, 0x2E, 0x30, 0x2E, 0x30] = true := by decide

/-- V-ST-6. -/
theorem test_bytes_beyond_ilen : nextWith (exec .dec32Be ((loaded [0x11, 0x22, 0x33, 0x44, 0x55, 0x66]).setIlen 4)) fun t => t.y32 = 0x11223344 = true := by decide

/-- R39: index 14 is in the buffer of every block. -/
theorem test_write_ibuf_last_common_index : nextWith (step { State.reset with pending := [.writeIbuf 14 0xAB] })
    fun t => t.ibufByte 14 = 0xAB && t.pending = [] = true := by decide

/-- R27, R39: STATUS reads as its code after an error. -/
theorem test_read_status : nextWith (step { State.reset.failed .rangeError with pending := [.read .status] })
    fun t => t.readback = some 4 = true := by decide

/-- V-RS-11. -/
theorem test_reset_returns_to_idle : nextWith (step { (loaded [0x47, 0x47]).failed .invalidFormat with pending := [.reset] })
    fun t => t.status = .idle && t.ilen = 0 && t.ibuf = [] = true := by decide

/-- Log 13: while the host does nothing, nothing changes. -/
theorem test_idle : nextWith (step State.reset) (fun t => t.pending = [] && t.status = .idle) = true := by decide

/-! ### Witnesses -/

/-- The state the host leaves when it copies the output of `t` to its input. -/
def fedBy (t : State) : State := { t with ilen := t.olen, ibuf := Memory.ofBytes t.output }

theorem fedBy_fed (t : State) : Fed t (fedBy t) := by
  refine ⟨rfl, fun k hk => ?_⟩
  have h : t.output[k]? = some (t.obufByte k) := State.output_getElem? t hk
  show ((Memory.ofBytes t.output).read? k).getD _ = _
  rw [Memory.read?_ofBytes, h]
  rfl

/-- A state that meets the invariant and is not the reset state: one byte of input, an error, a command pending. -/
def busy : State := { (loaded [0x41]).failed .invalidFormat with pending := [.writeCmd 0x01] }

theorem busy_inv : busy.Inv := by
  have h := Config.inCap_ge
  refine ⟨?_, Config.drawnOlen_lt _, .inr ⟨rfl, rfl⟩, ?_, Memory.nil_wf _, ?_, fun _ => rfl, Nat.zero_le _⟩
  · show 1 ≤ Config.inCap
    omega
  · refine ⟨by decide, fun c hc => ?_⟩
    obtain rfl : c = (0, 0x41) := List.mem_singleton.1 hc
    show 0 < Config.inCap
    omega
  · intro c hc
    exact absurd hc (List.not_mem_nil)

theorem witness_InvariantKeptByEveryStep : busy.Inv ∧ ∃ t, step busy = .next t := ⟨busy_inv, _, rfl⟩

/-- Each cause at the ends of its ranges. -/
theorem witness_IllegalWordsByCause :
    ([0x40, 0xFF] : List Byte).all (fun c => decode c = .error .reservedBits) ∧
    ([0x30, 0x3F] : List Byte).all (fun c => decode c = .error .reservedOrder) ∧
    ([0x00, 0x10, 0x20] : List Byte).all (fun c => decode c = .error .reservedOpcode) ∧
    ([0x11, 0x12, 0x17, 0x1F, 0x21, 0x22, 0x27, 0x2F] : List Byte).all (fun c => decode c = .error .unexpectedTag) ∧
    ([0x03, 0x06] : List Byte).all (fun c => decode c = .error .missingTag) := by decide

theorem witness_IllegalCauseIsNotRecorded : decode 0xFF = .error .reservedBits ∧ decode 0x03 = .error .missingTag := by
  decide

theorem witness_OrderTagExactlyOnIntegerCommands :
    ordField 0x33 = 0b11 ∧ (rsvField 0x13 = 0 ∧ opcField 0x13 = 3) ∧ (rsvField 0x26 = 0 ∧ opcField 0x26 = 6) ∧
    (rsvField 0x01 = 0 ∧ opcField 0x01 = 1) ∧ (rsvField 0x0F = 0 ∧ opcField 0x0F = 15) ∧
    decode 0x13 = .ok .enc64Be := by decide

theorem witness_AssembleDisassembleAgree : disassemble [0x01, 0x26] = .ok [.hexenc, .dec32Le] := by decide

theorem witness_StepRunsTheDecodedInstruction :
    busy.pending = .writeCmd 0x01 :: [] ∧ decode 0x01 = .ok .hexenc := by decide

theorem witness_FetchWordRunsNext : decodeTableWord 8 0x01 = some .hexenc ∧ decodeTableWord 8 0x26 = some .dec32Le := by
  decide

theorem witness_CommandsLeaveTheRequestGroup :
    (∃ t, issue 0x01 busy = .next t) ∧ (∃ t, issue 0x02 busy = .next t) ∧ (∃ t, issue 0xFF busy = .next t) :=
  ⟨⟨_, rfl⟩, ⟨_, rfl⟩, ⟨_, rfl⟩⟩

theorem witness_EveryCommandEnds : decode 0xFF = .error .reservedBits := by decide

theorem witness_ErrorMatrix :
    (∃ t, exec .hexdec busy = .next t ∧ t.status = .error .invalidFormat) ∧ errorOf .hexdec = some .invalidFormat :=
  ⟨⟨_, rfl, rfl⟩, rfl⟩

theorem witness_SuccessDefinesOnlyItsItems :
    (∃ t, exec .hexenc busy = .next t ∧ t.status = .ok ∧ t.olen ≤ 2) ∧
    (definesY64 .hexenc = false ∧ definesY32 .hexenc = false ∧ definesYp .hexenc = false ∧ definesOutput .hexenc = true) ∧
    (∃ t, exec .sdc32 busy = .next t ∧ t.status = .ok) ∧ definesOutput .sdc32 = false :=
  ⟨⟨_, rfl, rfl, by decide⟩, by decide, ⟨_, rfl, rfl⟩, rfl⟩

theorem witness_ErrorLeavesNoResult :
    (∃ t, issue 0x02 busy = .next t ∧ t.status = .error .invalidFormat) ∧
    (∃ t, issue 0x00 busy = .next t ∧ t.status = .error .illegalCommand) := ⟨⟨_, rfl, rfl⟩, ⟨_, rfl, rfl⟩⟩

/-- Two states that differ in X64, in the bytes beyond ILEN and in the response, and agree on what HEXENC reads. -/
theorem witness_ResponseDependsOnlyOnReads :
    AgreeOnReads .hexenc (loaded [0x41]) { (loaded [0x41, 0x42]).failed .rangeError with ilen := 1, x64 := 5 } ∧
    (∃ t, exec .hexenc (loaded [0x41]) = .next t) ∧
    (∃ t, exec .hexenc { (loaded [0x41, 0x42]).failed .rangeError with ilen := 1, x64 := 5 } = .next t) := by
  refine ⟨⟨(fun h => nomatch h), (fun h => nomatch h), (fun h => nomatch h), (fun _ => rfl), fun _ k hk => ?_⟩,
    ⟨_, rfl⟩, ⟨_, rfl⟩⟩
  obtain rfl : k = 0 := Nat.lt_one_iff.1 hk
  rfl

theorem witness_ReissueGivesTheSameResponse :
    ∃ t u, issue 0x01 busy = .next t ∧ issue 0x01 t = .next u ∧ decode 0x01 = .ok .hexenc := ⟨_, _, rfl, rfl, rfl⟩

/-- Each kind of refusal at the first value outside, and the neighbour inside it, which is not refused. -/
theorem witness_RefusesOnlyWhatTheHostLacks :
    step { busy with pending := [.writeIlen (2 ^ Config.lenw)] } = .refused .lengthOutsideRegister ∧
    step { busy with pending := [.writeIbuf Config.inCap 0] } = .refused .indexOutsideBuffer ∧
    step { busy with pending := [.read (.ibuf Config.inCap)] } = .refused .indexOutsideBuffer ∧
    step { busy with pending := [.read (.obuf Config.outCap)] } = .refused .indexOutsideBuffer ∧
    (∃ t, step { busy with pending := [.writeIlen Config.inCap] } = .next t) := by
  have h := Config.inCap_eq
  have hp : 0 < 2 ^ Config.lenw := Nat.two_pow_pos _
  have h0 : ¬ 2 ^ Config.lenw ≤ Config.inCap := by omega
  exact ⟨by simp [step, advance, perform, h0], by simp [step, advance, perform],
    by simp [step, advance, perform, readableExists], by simp [step, advance, perform, readableExists],
    ⟨_, by simp only [step, advance, perform, Nat.le_refl, if_true]; rfl⟩⟩

theorem witness_ResetActionAndIdle :
    ({ busy with pending := [.reset] } : State).pending = .reset :: [] ∧ busy.status ≠ .idle ∧
    (∃ t, step { busy with pending := [.reset] } = .next t ∧ t.status = .idle) := ⟨rfl, by decide, ⟨_, rfl, rfl⟩⟩

theorem witness_ResetForgetsTheRest : ({ busy with pending := [.reset] } : State).pending = .reset :: [] := rfl

/-- A state with the operands of reset whose response group and buffers are not those of reset. -/
theorem witness_FirstCommandAfterReset :
    let s : State := { busy with ilen := 0 }
    s.x64 = 0 ∧ s.x32 = 0 ∧ s.xp = 0 ∧ s.ilen = 0 ∧ s.ibuf ≠ [] ∧ decode 0x00 = .error .reservedOpcode := by decide

theorem witness_HostWritesSetOneItem : 15 < 2 ^ Config.lenw ∧ 14 < 2 ^ Config.lenw - 1 := by
  have h := Config.inCap_eq
  have h' := Config.inCap_ge
  omega

theorem witness_ResponseStandsUntilTheNextCommand :
    (∃ t, perform (.writeX64 7) busy = .next t) ∧ (∃ t, perform (.read .status) busy = .next t) ∧
    (∀ c, HostAction.writeX64 7 ≠ .writeCmd c) ∧ HostAction.writeX64 7 ≠ .reset :=
  ⟨⟨_, rfl⟩, ⟨_, rfl⟩, (fun _ h => nomatch h), by decide⟩

theorem witness_HostReadsReturnTheCurrentValue :
    (∀ r ∈ [Readable.x64, .x32, .xp, .ilen, .status, .y64, .y32, .yp, .olen],
      ({ busy with pending := [.read r] } : State).pending = .read r :: []) ∧
    (0 < 2 ^ Config.lenw - 1 ∧ ({ busy with pending := [.read (.ibuf 0)] } : State).pending = .read (.ibuf 0) :: []) ∧
    (29 < 2 * (2 ^ Config.lenw - 1) ∧
      ({ busy with pending := [.read (.obuf 29)] } : State).pending = .read (.obuf 29) :: []) := by
  have h := Config.inCap_eq
  have h' := Config.inCap_ge
  exact ⟨fun _ _ => rfl, ⟨by omega, rfl⟩, ⟨by omega, rfl⟩⟩

/-- The longest line every block can take, and an output that can be copied. -/
theorem witness_ListingLinesSetTheInput :
    (List.replicate 15 (0xAB : Byte)).length ≤ Config.inCap ∧
    ((loaded [0x41]).succeeded { out := some [0x34, 0x31] }).olen ≤ Config.inCap := by
  have h' := Config.inCap_ge
  refine ⟨by simpa using h', ?_⟩
  show 2 ≤ Config.inCap
  omega

theorem witness_HexencEncodesEveryByte :
    ((loaded [0x41]).ilen = 1 ∧ ∃ t, exec .hexenc (loaded [0x41]) = .next t ∧ 1 < t.olen) ∧ (loaded []).ilen = 0 ∧
    busy.ilen ≤ Config.inCap :=
  ⟨⟨rfl, _, rfl, by decide⟩, rfl, busy_inv.ilen_le⟩

theorem witness_HexdecAcceptsExactlyHexPairs :
    ((loaded []).ilen % 2 = 0 ∧ ∀ i < (loaded []).ilen, hexval ((loaded []).ibufByte i) ≠ none) ∧
    ((loaded [0x30, 0x66]).ilen % 2 = 0 ∧
      ∀ i < (loaded [0x30, 0x66]).ilen, hexval ((loaded [0x30, 0x66]).ibufByte i) ≠ none) ∧
    (loaded [0x41]).ilen % 2 = 1 ∧ (∃ i < (loaded [0x30, 0x67]).ilen, hexval ((loaded [0x30, 0x67]).ibufByte i) = none) :=
  ⟨by decide, by decide, by decide, 1, by decide, by decide⟩

/-- The bounds of the three ranges and the values just outside them. -/
theorem witness_HexDigitTables :
    hexval 0x30 = some 0 ∧ hexval 0x39 = some 9 ∧ hexval 0x41 = some 10 ∧ hexval 0x46 = some 15 ∧ hexval 0x61 = some 10 ∧
    hexval 0x66 = some 15 ∧ hexval 0x2F = none ∧ hexval 0x3A = none ∧ hexval 0x40 = none ∧ hexval 0x47 = none ∧
    hexval 0x60 = none ∧ hexval 0x67 = none := by decide

theorem witness_HexRoundTrip :
    2 * (loaded [0x41]).ilen ≤ Config.inCap ∧
    ∃ t, exec .hexenc (loaded [0x41]) = .next t ∧ t.status = .ok ∧ Fed t (fedBy t) := by
  have h' := Config.inCap_ge
  refine ⟨?_, _, rfl, rfl, fedBy_fed _⟩
  show 2 * 1 ≤ Config.inCap
  omega

theorem witness_HexNormalises :
    (∃ t, exec .hexenc (loaded [0x0A]) = .next t ∧ t.olen = 2) ∧
    (∃ t, exec .hexdec (loaded [0x61, 0x47]) = .next t ∧ t.status ≠ .ok) ∧
    ∃ t, exec .hexdec (loaded [0x61, 0x46]) = .next t ∧ t.status = .ok ∧ Fed t (fedBy t) :=
  ⟨⟨_, rfl, rfl⟩, ⟨_, rfl, by decide⟩, _, rfl, rfl, fedBy_fed _⟩

theorem witness_Dec64UnpacksEightBytes :
    (loaded [1, 2, 3, 4, 5, 6, 7, 8]).ilen = 8 ∧ (loaded [1, 2, 3, 4, 5, 6, 7]).ilen ≠ 8 ∧
    (loaded [1, 2, 3, 4, 5, 6, 7, 8, 9]).ilen ≠ 8 := by decide

theorem witness_Dec32UnpacksFourBytes :
    (loaded [1, 2, 3, 4]).ilen = 4 ∧ (loaded [1, 2, 3]).ilen ≠ 4 ∧ (loaded [1, 2, 3, 4, 5]).ilen ≠ 4 := by decide

theorem witness_Sdc32NarrowsInRange :
    (withX64 0x7FFFFFFF).x64.toInt = 2147483647 ∧ (withX64 0xFFFFFFFF80000000).x64.toInt = -2147483648 ∧
    (withX64 0x80000000).x64.toInt = 2147483648 ∧ (withX64 0xFFFFFFFF7FFFFFFF).x64.toInt = -2147483649 := by decide

theorem witness_IntegerRoundTrips :
    (∃ t, exec .enc64Le (withX64 5) = .next t ∧ t.status = .ok ∧ Fed t (fedBy t)) ∧
    (∃ t, exec .enc32Be (withX32 5) = .next t ∧ t.status = .ok ∧ Fed t (fedBy t)) ∧
    ((loaded [1, 2, 3, 4, 5, 6, 7, 8]).ilen = 8 ∧
      ∃ t u : State, exec .dec64Be (loaded [1, 2, 3, 4, 5, 6, 7, 8]) = .next t ∧ u.x64 = t.y64) ∧
    ((loaded [1, 2, 3, 4]).ilen = 4 ∧ ∃ t u : State, exec .dec32Le (loaded [1, 2, 3, 4]) = .next t ∧ u.x32 = t.y32) :=
  ⟨⟨_, rfl, rfl, fedBy_fed _⟩, ⟨_, rfl, rfl, fedBy_fed _⟩, ⟨rfl, _, withX64 0x0102030405060708, rfl, by decide⟩,
    ⟨rfl, _, withX32 0x04030201, rfl, by decide⟩⟩

theorem witness_OrdersDifferByByteReversal :
    (∃ t u, exec .enc64Be (withX64 5) = .next t ∧ exec .enc64Le (withX64 5) = .next u ∧ Fed t (fedBy t)) ∧
    (∃ t u, exec .enc32Be (withX32 5) = .next t ∧ exec .enc32Le (withX32 5) = .next u ∧ Fed u (fedBy u)) ∧
    (∃ u, exec .enc64Le (withX64 5) = .next u ∧ Fed u (fedBy u)) ∧
    (∃ t, exec .enc32Be (withX32 5) = .next t ∧ Fed t (fedBy t)) :=
  ⟨⟨_, _, rfl, rfl, fedBy_fed _⟩, ⟨_, _, rfl, rfl, fedBy_fed _⟩, ⟨_, rfl, fedBy_fed _⟩, ⟨_, rfl, fedBy_fed _⟩⟩

/-- "1.2.3.4", the shortest form. -/
def shortQuad : List Byte := [0x31, 0x2E, 0x32, 0x2E, 0x33, 0x2E, 0x34]

/-- "255.255.255.255", the longest form, each octet at its bound. -/
def longQuad : List Byte := [0x32, 0x35, 0x35, 0x2E, 0x32, 0x35, 0x35, 0x2E, 0x32, 0x35, 0x35, 0x2E, 0x32, 0x35, 0x35]

/-- "256.1.1.1": its first token is the first value above the bound. -/
def overQuad : List Byte := [0x32, 0x35, 0x36, 0x2E, 0x31, 0x2E, 0x31, 0x2E, 0x31]

/-- "000000001.1.1.1" has a token of nine digits. -/
def nineDigits : List Byte := [0x30, 0x30, 0x30, 0x30, 0x30, 0x30, 0x30, 0x30, 0x31]

theorem shortQuad_quad : IsDottedQuad shortQuad [0x31] [0x32] [0x33] [0x34] :=
  ⟨by decide, by unfold IsDecimalToken; decide, by decide⟩

theorem longQuad_quad :
    IsDottedQuad longQuad [0x32, 0x35, 0x35] [0x32, 0x35, 0x35] [0x32, 0x35, 0x35] [0x32, 0x35, 0x35] :=
  ⟨by decide, by unfold IsDecimalToken; decide, by decide⟩

/-- Both length bounds, and the two ways to fall outside them. -/
theorem witness_ParseaddrAcceptsExactlyDottedQuads :
    (7 ≤ (loaded shortQuad).ilen ∧ (loaded shortQuad).ilen ≤ 15 ∧
      IsDottedQuad (loaded shortQuad).input [0x31] [0x32] [0x33] [0x34]) ∧
    ((loaded longQuad).ilen = 15 ∧ IsDottedQuad (loaded longQuad).input [0x32, 0x35, 0x35] [0x32, 0x35, 0x35]
      [0x32, 0x35, 0x35] [0x32, 0x35, 0x35]) ∧
    (loaded [0x31, 0x2E, 0x32, 0x2E, 0x33, 0x2E]).ilen < 7 ∧ 15 < (loaded (0x30 :: longQuad)).ilen :=
  ⟨⟨by decide, by decide, shortQuad_quad⟩, ⟨by decide, longQuad_quad⟩, by decide, by decide⟩

theorem witness_TokenValueNeverOverflows :
    (nineDigits ++ dot :: ([0x31] ++ dot :: ([0x31] ++ dot :: [0x31]))).length ≤ 15 ∧
    (∀ t ∈ [nineDigits, [0x31], [0x31], [0x31]], IsDecimalToken t) ∧ isDigit 0x39 = true ∧
    ((loaded overQuad).ilen = 9 ∧
      (loaded overQuad).input = [0x32, 0x35, 0x36] ++ dot :: ([0x31] ++ dot :: ([0x31] ++ dot :: [0x31])) ∧
      (∀ t ∈ [[0x32, 0x35, 0x36], [0x31], [0x31], [0x31]], IsDecimalToken t) ∧ 255 < decval [0x32, 0x35, 0x36]) :=
  ⟨by decide, by unfold IsDecimalToken; decide, by decide, by decide, by decide, by unfold IsDecimalToken; decide,
    by decide⟩

theorem witness_DecIsTheShortestDecimalText :
    IsDecimalToken [0x30, 0x30, 0x37] ∧ decval [0x30, 0x30, 0x37] = (7 : Byte).toNat :=
  ⟨by unfold IsDecimalToken; decide, by decide⟩

theorem witness_B2addrUnpacksBigEndian :
    (loaded [1, 2, 3, 4]).ilen = 4 ∧ (loaded [1, 2, 3]).ilen ≠ 4 ∧ (loaded [1, 2, 3, 4, 5]).ilen ≠ 4 := by decide

theorem witness_AddressRoundTrips :
    (∃ t, exec .addr2b (withX32 5) = .next t ∧ t.status = .ok ∧ Fed t (fedBy t)) ∧
    (∃ t, exec .fmtaddr (withX32 5) = .next t ∧ t.status = .ok ∧ Fed t (fedBy t)) ∧
    ((loaded [1, 2, 3, 4]).ilen = 4 ∧ ∃ t u : State, exec .b2addr (loaded [1, 2, 3, 4]) = .next t ∧ u.x32 = t.y32) :=
  ⟨⟨_, rfl, rfl, fedBy_fed _⟩, ⟨_, rfl, rfl, fedBy_fed _⟩, ⟨rfl, _, withX32 0x01020304, rfl, by decide⟩⟩

theorem witness_AddressTextNormalises :
    ∃ t, exec .parseaddr (loaded shortQuad) = .next t ∧ t.status = .ok ∧
      IsDottedQuad (loaded shortQuad).input [0x31] [0x32] [0x33] [0x34] ∧ (withX32 0x01020304).x32 = t.y32 :=
  ⟨_, rfl, rfl, shortQuad_quad, by decide⟩

theorem witness_AddressCommandsMatchIntegerCommands :
    (∃ t u, exec .addr2b (withX32 5) = .next t ∧ exec .enc32Be (withX32 5) = .next u) ∧
    (∃ t u, exec .b2addr (loaded [1, 2, 3, 4]) = .next t ∧ exec .dec32Be (loaded [1, 2, 3, 4]) = .next u ∧
      t.status = .ok) := ⟨⟨_, _, rfl, rfl⟩, ⟨_, _, rfl, rfl, rfl⟩⟩

theorem witness_Port2bPacksLittleEndian :
    (withXp 0xFFFF).xp.toNat ≤ 65535 ∧ 65535 < (withXp 0x10000).xp.toNat ∧ 65535 < (withXp 0xFFFFFFFF).xp.toNat := by
  decide

theorem witness_B2portUnpacksLittleEndian :
    (loaded [0x90, 0x1F]).ilen = 2 ∧ (loaded [1]).ilen ≠ 2 ∧ (loaded [1, 2, 3]).ilen ≠ 2 := by decide

theorem witness_PortRoundTrips :
    ((withXp 0xFFFF).xp.toNat ≤ 65535 ∧ ∃ t, exec .port2b (withXp 0xFFFF) = .next t ∧ t.status = .ok ∧ Fed t (fedBy t)) ∧
    ((loaded [0x90, 0x1F]).ilen = 2 ∧
      ∃ t u : State, exec .b2port (loaded [0x90, 0x1F]) = .next t ∧ u.xp = t.yp.setWidth 32) :=
  ⟨⟨by decide, _, rfl, rfl, fedBy_fed _⟩, ⟨rfl, _, withXp 0x1F90, rfl, by decide⟩⟩

theorem witness_Ep2bPacksTheRecord :
    (withXp 0xFFFF).xp.toNat ≤ 65535 ∧ 65535 < (withXp 0x10000).xp.toNat := by decide

theorem witness_B2epSplitsTheRecord :
    (loaded [1, 2, 3, 4, 5, 6]).ilen = 6 ∧ (loaded [1, 2, 3, 4, 5]).ilen ≠ 6 ∧ (loaded [1, 2, 3, 4, 5, 6, 7]).ilen ≠ 6 := by
  decide

theorem witness_EndpointRoundTrips :
    ((withXp 0xFFFF).xp.toNat ≤ 65535 ∧ ∃ t, exec .ep2b (withXp 0xFFFF) = .next t ∧ t.status = .ok ∧ Fed t (fedBy t)) ∧
    ((loaded [1, 2, 3, 4, 5, 6]).ilen = 6 ∧ ∃ t u : State, exec .b2ep (loaded [1, 2, 3, 4, 5, 6]) = .next t ∧
      (u.x32, u.xp) = (t.y32, t.yp.setWidth 32)) :=
  ⟨⟨by decide, _, rfl, rfl, fedBy_fed _⟩, ⟨rfl, _, (withX32 0x01020304).setXp 0x0605, rfl, by decide⟩⟩

end Sys2Proof.Tests
end

/-! ### Proofs of the statements of 00_scope.md -/

section
/-!
SUPPORT. The hex digits of R10 to R12: the range each of the three classes of digit is, and what `hexval` gives on it.
-/

namespace Sys2Proof.Machine

theorem isDigit_iff (c : Byte) : isDigit c = true ↔ 0x30 ≤ c.toNat ∧ c.toNat ≤ 0x39 := by simp [isDigit]

theorem isUpHex_iff (c : Byte) : isUpHex c = true ↔ 0x41 ≤ c.toNat ∧ c.toNat ≤ 0x46 := by simp [isUpHex]

theorem isLoHex_iff (c : Byte) : isLoHex c = true ↔ 0x61 ≤ c.toNat ∧ c.toNat ≤ 0x66 := by simp [isLoHex]

theorem isDigit_eq_false_of_isUpHex {c : Byte} (h : isUpHex c = true) : isDigit c = false := by
  rw [isUpHex_iff] at h
  rw [Bool.eq_false_iff, Ne, isDigit_iff]
  omega

theorem isDigit_eq_false_of_isLoHex {c : Byte} (h : isLoHex c = true) : isDigit c = false := by
  rw [isLoHex_iff] at h
  rw [Bool.eq_false_iff, Ne, isDigit_iff]
  omega

theorem isUpHex_eq_false_of_isLoHex {c : Byte} (h : isLoHex c = true) : isUpHex c = false := by
  rw [isLoHex_iff] at h
  rw [Bool.eq_false_iff, Ne, isUpHex_iff]
  omega

theorem hexval_of_isDigit {c : Byte} (h : isDigit c = true) :
    hexval c = some (BitVec.ofNat 4 (c.toNat - 0x30)) := by simp [hexval, h]

theorem hexval_of_isUpHex {c : Byte} (h : isUpHex c = true) :
    hexval c = some (BitVec.ofNat 4 (c.toNat - 0x41 + 10)) := by
  simp [hexval, h, isDigit_eq_false_of_isUpHex h]

theorem hexval_of_isLoHex {c : Byte} (h : isLoHex c = true) :
    hexval c = some (BitVec.ofNat 4 (c.toNat - 0x61 + 10)) := by
  simp [hexval, h, isDigit_eq_false_of_isLoHex h, isUpHex_eq_false_of_isLoHex h]

/-- R12: *invalid* is the answer exactly outside the three classes. -/
theorem hexval_eq_none_iff (c : Byte) :
    hexval c = none ↔ isDigit c = false ∧ isUpHex c = false ∧ isLoHex c = false := by
  constructor
  · intro h
    refine ⟨Bool.eq_false_iff.2 fun hd => ?_, Bool.eq_false_iff.2 fun hu => ?_, Bool.eq_false_iff.2 fun hl => ?_⟩
    · simp [hexval_of_isDigit hd] at h
    · simp [hexval_of_isUpHex hu] at h
    · simp [hexval_of_isLoHex hl] at h
  · rintro ⟨hd, hu, hl⟩
    simp [hexval, hd, hu, hl]

/-- R11 and R12 on the sixteen nibbles. -/
@[simp] theorem hexval_hexchar (n : BitVec 4) : hexval (hexchar n) = some n := by
  revert n
  decide

/-- Settles O28: R11's table by its sixteen rows, R12's by the three ranges of hex digits. -/
theorem hexDigitTables : Obligations.HexDigitTables := by
  refine ⟨by decide, fun c => ?_, fun c h h' => hexval_of_isDigit ((isDigit_iff c).2 ⟨h, h'⟩),
    fun c h h' => hexval_of_isUpHex ((isUpHex_iff c).2 ⟨h, h'⟩),
    fun c h h' => hexval_of_isLoHex ((isLoHex_iff c).2 ⟨h, h'⟩), hexval_hexchar⟩
  rw [hexval_eq_none_iff, Bool.eq_false_iff, Bool.eq_false_iff, Bool.eq_false_iff, Ne, Ne, Ne, isDigit_iff, isUpHex_iff,
    isLoHex_iff]
  omega

end Sys2Proof.Machine
end

section
/-!
SUPPORT. The decimal text of an octet (R13, R14): the digits it is made of, its value, and that a token of `n` digits has a
value below `10 ^ n`, which is why no shorter token has the same value.
-/

namespace Sys2Proof.Machine

/-- The character of a decimal digit is `0x30 + n`, with no carry out of its byte (R14). -/
theorem toNat_digit {n : Nat} (h : n ≤ 9) : (BitVec.ofNat 8 (0x30 + n)).toNat = 0x30 + n := by
  rw [BitVec.toNat_ofNat]
  omega

theorem isDigit_digit {n : Nat} (h : n ≤ 9) : isDigit (BitVec.ofNat 8 (0x30 + n)) = true := by
  rw [isDigit_iff, toNat_digit h]
  omega

@[simp] theorem decval_nil : decval [] = 0 := rfl

theorem decval_cons (d : Byte) (ds : List Byte) : decval (d :: ds) = (d.toNat - 0x30) * 10 ^ ds.length + decval ds := rfl

theorem decval_digit_cons {n : Nat} (h : n ≤ 9) (ds : List Byte) :
    decval (BitVec.ofNat 8 (0x30 + n) :: ds) = n * 10 ^ ds.length + decval ds := by
  rw [decval_cons, toNat_digit h, Nat.add_sub_cancel_left]

/-- R13: `n` digits denote a number below `10 ^ n`. -/
theorem decval_lt_pow_length {t : List Byte} (h : ∀ b ∈ t, isDigit b = true) : decval t < 10 ^ t.length := by
  induction t with
  | nil => simp
  | cons d ds ih =>
    obtain ⟨hd, hds⟩ := List.forall_mem_cons.1 h
    have hle : (d.toNat - 0x30) * 10 ^ ds.length ≤ 9 * 10 ^ ds.length :=
      Nat.mul_le_mul_right _ (by have := (isDigit_iff d).1 hd; omega)
    have hlt := ih hds
    rw [decval_cons, List.length_cons, Nat.pow_succ]
    omega

/-- R14's three cases by the size of the octet, each with the digits it has. -/
theorem dec_cases (o : Byte) :
    (o.toNat ≤ 9 ∧ dec o = [BitVec.ofNat 8 (0x30 + o.toNat)]) ∨
    (10 ≤ o.toNat ∧ o.toNat ≤ 99 ∧
      dec o = [BitVec.ofNat 8 (0x30 + o.toNat / 10), BitVec.ofNat 8 (0x30 + o.toNat % 10)]) ∨
    (100 ≤ o.toNat ∧ dec o = [BitVec.ofNat 8 (0x30 + o.toNat / 100), BitVec.ofNat 8 (0x30 + o.toNat / 10 % 10),
      BitVec.ofNat 8 (0x30 + o.toNat % 10)]) := by
  simp only [dec]
  split
  · exact .inr (.inr ⟨by omega, rfl⟩)
  · split
    · have htens : o.toNat / 10 % 10 = o.toNat / 10 := by omega
      exact .inr (.inl ⟨by omega, by omega, by rw [htens]⟩)
    · have hunits : o.toNat % 10 = o.toNat := by omega
      exact .inl ⟨by omega, by rw [hunits]⟩

theorem dec_all_isDigit (o : Byte) : (dec o).all isDigit = true := by
  have ho := o.isLt
  rw [List.all_eq_true]
  obtain ⟨h, hd⟩ | ⟨-, h, hd⟩ | ⟨-, hd⟩ := dec_cases o <;> rw [hd]
  · exact List.forall_mem_singleton.2 (isDigit_digit h)
  · rw [List.forall_mem_cons, List.forall_mem_singleton]
    exact ⟨isDigit_digit (by omega), isDigit_digit (by omega)⟩
  · rw [List.forall_mem_cons, List.forall_mem_cons, List.forall_mem_singleton]
    exact ⟨isDigit_digit (by omega), isDigit_digit (by omega), isDigit_digit (by omega)⟩

/-- R14: the text denotes the octet. -/
@[simp] theorem decval_dec (o : Byte) : decval (dec o) = o.toNat := by
  have ho := o.isLt
  obtain ⟨h, hd⟩ | ⟨-, h, hd⟩ | ⟨-, hd⟩ := dec_cases o <;> rw [hd]
  · rw [decval_digit_cons h]
    simp
  · rw [decval_digit_cons (by omega), decval_digit_cons (by omega)]
    simp only [List.length_cons, List.length_nil, decval_nil]
    omega
  · rw [decval_digit_cons (by omega), decval_digit_cons (by omega), decval_digit_cons (by omega)]
    simp only [List.length_cons, List.length_nil, decval_nil]
    omega

theorem dec_length_eq (o : Byte) : (dec o).length = if o.toNat ≤ 9 then 1 else if o.toNat ≤ 99 then 2 else 3 := by
  obtain ⟨h, hd⟩ | ⟨h, h', hd⟩ | ⟨h, hd⟩ := dec_cases o <;> rw [hd]
  · rw [if_pos h]
    rfl
  · rw [if_neg (by omega), if_pos h']
    rfl
  · rw [if_neg (by omega), if_neg (by omega)]
    rfl

/-- R14: no string of digits that denotes the octet is shorter than its text: one digit denotes at most 9, two at most 99. -/
theorem dec_length_le_of_decval_eq {o : Byte} {t : List Byte} (ht : IsDecimalToken t) (hv : decval t = o.toNat) :
    (dec o).length ≤ t.length := by
  obtain ⟨hne, hdigits⟩ := ht
  have hpos : 0 < t.length := List.length_pos_iff.2 hne
  have hlt : o.toNat < 10 ^ t.length := hv ▸ decval_lt_pow_length hdigits
  by_contra hshort
  rw [dec_length_eq] at hshort
  have hone : t.length = 1 → o.toNat < 10 := fun h => by simpa [h] using hlt
  have htwo : t.length = 2 → o.toNat < 100 := fun h => by simpa [h] using hlt
  split at hshort
  · omega
  · split at hshort <;> omega

/-- Settles O41, from the three cases of R14 and the bound on what a string of digits can denote. -/
theorem decIsTheShortestDecimalText : Obligations.DecIsTheShortestDecimalText := fun o =>
  ⟨dec_all_isDigit o, decval_dec o, dec_length_eq o, fun _ ht hv => dec_length_le_of_decval_eq ht hv, rfl⟩

end Sys2Proof.Machine
end

section
/-!
SUPPORT. The invariant `State.Inv` through every update of the state, and so through every step. A response is drawn anew or
produced by a command whose output fits OBUF (`Assigns.fits`); every other update leaves lengths and buffers alone or is
bounded by the host's own check.
-/

namespace Sys2Proof.Machine

/-! ### What a host action and a step can do -/

theorem perform_writeIlen_next_iff {v : Nat} {s t : State} :
    perform (.writeIlen v) s = .next t ↔ v ≤ Config.inCap ∧ s.setIlen v = t := by
  by_cases h : v ≤ Config.inCap <;> simp [perform, h]

theorem perform_writeIbuf_next_iff {i : Nat} {b : Byte} {s t : State} :
    perform (.writeIbuf i b) s = .next t ↔ i < Config.inCap ∧ s.setIbuf i b = t := by
  by_cases h : i < Config.inCap <;> simp [perform, h]

theorem perform_read_next_iff {q : Readable} {s t : State} :
    perform (.read q) s = .next t ↔ readableExists q = true ∧ s.setReadback (s.readValue q) = t := by
  by_cases h : readableExists q = true <;> simp [perform, h]

theorem step_of_pending_nil {s : State} (h : s.pending = []) : step s = .next s := by simp [step, advance, h]

theorem step_of_pending_cons {s : State} {a : HostAction} {rest : List HostAction} (h : s.pending = a :: rest) :
    step s = perform a (s.setPending rest) := by simp [step, advance, h]

/-! ### The invariant through each update -/

/-- The invariant speaks of the two lengths, the two buffers, STATUS and the draws only. -/
theorem State.Inv.congr {s t : State} (h : s.Inv) (hilen : t.ilen = s.ilen) (hibuf : t.ibuf = s.ibuf)
    (hstatus : t.status = s.status) (holen : t.olen = s.olen) (hobuf : t.obuf = s.obuf) (hdrawn : t.drawn = s.drawn)
    (hibufDraw : t.ibufDraw = s.ibufDraw) : t.Inv where
  ilen_le := hilen ▸ h.ilen_le
  olen_lt := holen ▸ h.olen_lt
  olen_fits := by simpa only [holen, hdrawn, hobuf] using h.olen_fits
  ibuf_wf := hibuf ▸ h.ibuf_wf
  obuf_wf := hobuf ▸ h.obuf_wf
  obuf_below := by simpa only [holen, hobuf] using h.obuf_below
  obuf_only_ok := by simpa only [hstatus, hobuf] using h.obuf_only_ok
  ibufDraw_le := by simpa only [hibufDraw, hdrawn] using h.ibufDraw_le

/-- A response without an output sequence meets the invariant whatever OLEN's draw is (U1, log 10). -/
theorem State.Inv.of_drawn {t : State} (hilen : t.ilen ≤ Config.inCap) (hibuf : Memory.wf Config.inCap t.ibuf)
    (hdraw : t.ibufDraw ≤ t.drawn) (holen : t.olen = Config.drawnOlen t.drawn) (hobuf : t.obuf = []) : t.Inv where
  ilen_le := hilen
  olen_lt := holen ▸ Config.drawnOlen_lt t.drawn
  olen_fits := .inr ⟨holen, hobuf⟩
  ibuf_wf := hibuf
  obuf_wf := hobuf ▸ Memory.nil_wf _
  obuf_below := by simp [hobuf]
  obuf_only_ok _ := hobuf
  ibufDraw_le := hdraw

theorem State.Inv.setPending {s : State} (h : s.Inv) (l : List HostAction) : (s.setPending l).Inv :=
  h.congr rfl rfl rfl rfl rfl rfl rfl

theorem State.Inv.setIlen {s : State} (h : s.Inv) {v : Nat} (hv : v ≤ Config.inCap) : (s.setIlen v).Inv :=
  { h with ilen_le := hv }

theorem State.Inv.setIbuf {s : State} (h : s.Inv) {i : Nat} (b : Byte) (hi : i < Config.inCap) : (s.setIbuf i b).Inv :=
  { h with ibuf_wf := Memory.write_wf b h.ibuf_wf hi }

theorem State.Inv.hostReset {s : State} : s.hostReset.Inv :=
  State.Inv.of_drawn (Nat.zero_le _) (Memory.nil_wf _) le_rfl rfl rfl

theorem State.Inv.failed {s : State} (h : s.Inv) (e : ErrorKind) : (s.failed e).Inv :=
  State.Inv.of_drawn h.ilen_le h.ibuf_wf (Nat.le_succ_of_le h.ibufDraw_le) rfl rfl

/-- R91: a success response whose sequence, if it has one, fits OBUF. -/
theorem State.Inv.succeeded {s : State} (h : s.Inv) {r : Response}
    (hfits : ∀ bs, r.out = some bs → bs.length ≤ Config.outCap) : (s.succeeded r).Inv := by
  have hdraw : s.ibufDraw ≤ s.drawn + 1 := Nat.le_succ_of_le h.ibufDraw_le
  cases hout : r.out with
  | none => exact State.Inv.of_drawn h.ilen_le h.ibuf_wf hdraw (by simp [hout]) (by simp [hout])
  | some bs =>
    have hlen : (s.succeeded r).olen = bs.length := by simp [hout]
    have hobuf : (s.succeeded r).obuf = Memory.ofBytes bs := by simp [hout]
    have hcap := hfits bs hout
    exact {
      ilen_le := h.ilen_le
      olen_lt := by
        have := Config.outCap_eq
        omega
      olen_fits := .inl (hlen ▸ hcap)
      ibuf_wf := h.ibuf_wf
      obuf_wf := hobuf ▸ Memory.ofBytes_wf hcap
      obuf_below := by
        rw [hobuf, hlen]
        exact fun c => Memory.mem_ofBytes
      obuf_only_ok := fun hne => absurd rfl hne
      ibufDraw_le := hdraw }

/-! ### The invariant through commands, host actions and steps -/

theorem exec_keeps_inv {i : Instr} {s t : State} (h : s.Inv) (he : exec i s = .next t) : t.Inv := by
  obtain ⟨r, hr, hs⟩ | ⟨e, -, hs⟩ := exec_cases i s
  · obtain rfl := Host.Outcome.next.inj (hs.symm.trans he)
    exact h.succeeded fun bs hbs => hr.fits bs hbs h.ilen_le
  · obtain rfl := Host.Outcome.next.inj (hs.symm.trans he)
    exact h.failed e

theorem issue_keeps_inv {c : Byte} {s t : State} (h : s.Inv) (hi : issue c s = .next t) : t.Inv := by
  obtain ⟨i, -, hs⟩ | ⟨e, -, hs⟩ := issue_cases c s
  · exact exec_keeps_inv h (hs.symm.trans hi)
  · obtain rfl := Host.Outcome.next.inj (hs.symm.trans hi)
    exact h.failed .illegalCommand

/-- R39: each of the host's actions keeps the invariant; the two that could break it have the bound that `perform` checks. -/
theorem perform_keeps_inv {a : HostAction} {s t : State} (h : s.Inv) (hp : perform a s = .next t) : t.Inv := by
  cases a with
  | writeX64 v =>
    obtain rfl := Host.Outcome.next.inj hp
    exact h.congr rfl rfl rfl rfl rfl rfl rfl
  | writeX32 v =>
    obtain rfl := Host.Outcome.next.inj hp
    exact h.congr rfl rfl rfl rfl rfl rfl rfl
  | writeXp v =>
    obtain rfl := Host.Outcome.next.inj hp
    exact h.congr rfl rfl rfl rfl rfl rfl rfl
  | writeIlen v =>
    obtain ⟨hv, rfl⟩ := perform_writeIlen_next_iff.1 hp
    exact h.setIlen hv
  | writeIbuf i b =>
    obtain ⟨hi, rfl⟩ := perform_writeIbuf_next_iff.1 hp
    exact h.setIbuf b hi
  | writeCmd c => exact issue_keeps_inv h hp
  | read q =>
    obtain ⟨-, rfl⟩ := perform_read_next_iff.1 hp
    exact h.congr rfl rfl rfl rfl rfl rfl rfl
  | reset =>
    obtain rfl := Host.Outcome.next.inj hp
    exact State.Inv.hostReset

/-- Settles O15: a step performs the host's oldest action, and each action keeps the invariant. -/
theorem invariantKeptByEveryStep : Obligations.InvariantKeptByEveryStep := by
  intro s t h hstep
  cases hp : s.pending with
  | nil =>
    obtain rfl := Host.Outcome.next.inj ((step_of_pending_nil hp).symm.trans hstep)
    exact h
  | cons a rest => exact perform_keeps_inv (h.setPending rest) ((step_of_pending_cons hp).symm.trans hstep)

end Sys2Proof.Machine
end

/-! ### Proofs of the statements of 10_state.md -/

section
/-!
SUPPORT. What the host's actions can do (R39): the bounds `perform` checks in the spec's own form (R4), when an action is
refused, and what a read or a write of one request item leaves of the rest (R37, R38).
-/

namespace Sys2Proof.Machine

/-! ### The bounds of R4 -/

/-- R4: the numbers LENW bits hold are the lengths `0 .. IN_CAP`. -/
theorem lt_two_pow_lenw_iff {v : Nat} : v < 2 ^ Config.lenw ↔ v ≤ Config.inCap := by
  have hpos : 0 < 2 ^ Config.lenw := Nat.two_pow_pos _
  rw [Config.inCap_eq]
  omega

theorem readableExists_ibuf {i : Nat} : readableExists (.ibuf i) = true ↔ i < Config.inCap := by simp [readableExists]

theorem readableExists_obuf {i : Nat} : readableExists (.obuf i) = true ↔ i < Config.outCap := by simp [readableExists]

/-- U7: the only reads the host does not have are of a byte outside its buffer. -/
theorem readableExists_eq_false_iff {q : Readable} : readableExists q = false ↔
    (∃ i, q = .ibuf i ∧ Config.inCap ≤ i) ∨ (∃ i, q = .obuf i ∧ Config.outCap ≤ i) := by
  cases q <;> simp [readableExists]

/-! ### What is refused -/

theorem issue_ne_refused (c : Byte) (s : State) (r : Refusal) : issue c s ≠ .refused r := by
  obtain ⟨i, -, hs⟩ | ⟨e, -, hs⟩ := issue_cases c s
  · obtain ⟨q, -, hq⟩ | ⟨e, -, he⟩ := exec_cases i s
    · simp [hs, hq]
    · simp [hs, he]
  · simp [hs]

theorem perform_writeIlen_of_lt {v : Nat} (s : State) (h : Config.inCap < v) :
    perform (.writeIlen v) s = .refused .lengthOutsideRegister := by simp [perform, Nat.not_le.2 h]

theorem perform_writeIbuf_of_le {i : Nat} (b : Byte) (s : State) (h : Config.inCap ≤ i) :
    perform (.writeIbuf i b) s = .refused .indexOutsideBuffer := by simp [perform, Nat.not_lt.2 h]

theorem perform_read_of_not_exists {q : Readable} (s : State) (h : readableExists q = false) :
    perform (.read q) s = .refused .indexOutsideBuffer := by simp [perform, h]

/-- `perform_refused` with its converse, and without its exception: a command is never refused. -/
theorem perform_refused_iff {a : HostAction} {s : State} {r : Refusal} : perform a s = .refused r ↔
    (∃ v, a = .writeIlen v ∧ Config.inCap < v ∧ r = .lengthOutsideRegister) ∨
    (∃ i b, a = .writeIbuf i b ∧ Config.inCap ≤ i ∧ r = .indexOutsideBuffer) ∨
    (∃ q, a = .read q ∧ readableExists q = false ∧ r = .indexOutsideBuffer) := by
  constructor
  · intro h
    refine perform_refused h fun c hc => ?_
    subst hc
    exact issue_ne_refused c s r h
  · rintro (⟨v, rfl, hv, rfl⟩ | ⟨i, b, rfl, hi, rfl⟩ | ⟨q, rfl, hq, rfl⟩)
    · exact perform_writeIlen_of_lt s hv
    · exact perform_writeIbuf_of_le b s hi
    · exact perform_read_of_not_exists s hq

theorem step_refused_iff {s : State} {r : Refusal} : step s = .refused r ↔
    ∃ a rest, s.pending = a :: rest ∧ perform a (s.setPending rest) = .refused r := by
  cases hp : s.pending with
  | nil => simp [step_of_pending_nil hp]
  | cons a rest => simp [step_of_pending_cons hp]

/-- Settles O17: a step refuses what `perform` refuses, and a read that does not exist is one of the two buffers'. -/
theorem refusesOnlyWhatTheHostLacks : Obligations.RefusesOnlyWhatTheHostLacks := by
  intro s r
  rw [step_refused_iff]
  refine exists_congr fun a => exists_congr fun rest => and_congr_right fun _ => ?_
  rw [perform_refused_iff]
  refine or_congr (exists_congr fun v => ?_) (or_congr_right ⟨?_, ?_⟩)
  · rw [← Nat.not_le, ← lt_two_pow_lenw_iff, Nat.not_lt]
  · rintro ⟨q, rfl, hq, rfl⟩
    obtain ⟨i, rfl, hi⟩ | ⟨i, rfl, hi⟩ := readableExists_eq_false_iff.1 hq
    · exact .inl ⟨i, rfl, hi, rfl⟩
    · exact .inr ⟨i, rfl, hi, rfl⟩
  · rintro (⟨i, rfl, hi, rfl⟩ | ⟨i, rfl, hi, rfl⟩)
    · exact ⟨_, rfl, readableExists_eq_false_iff.2 (.inl ⟨i, rfl, hi⟩), rfl⟩
    · exact ⟨_, rfl, readableExists_eq_false_iff.2 (.inr ⟨i, rfl, hi⟩), rfl⟩

/-! ### What an action leaves as it was -/

/-- The response group is the same after an update that keeps its fields and its draw. -/
theorem SameResponseGroup.of_fields_eq {s t : State} (hstatus : t.status = s.status) (hy64 : t.y64 = s.y64)
    (hy32 : t.y32 = s.y32) (hyp : t.yp = s.yp) (holen : t.olen = s.olen) (hobuf : t.obuf = s.obuf)
    (hdrawn : t.drawn = s.drawn) : SameResponseGroup s t where
  status := hstatus
  y64 := hy64
  y32 := hy32
  yp := hyp
  olen := holen
  obuf k := by simp [State.obufByte, hobuf, hdrawn]

/-- R38: an action that neither issues a command nor resets the block leaves the response group. -/
theorem perform_sameResponseGroup {a : HostAction} {s t : State} (hp : perform a s = .next t)
    (hcmd : ∀ c, a ≠ .writeCmd c) (hreset : a ≠ .reset) : SameResponseGroup s t := by
  cases a with
  | writeX64 v =>
    obtain rfl := Host.Outcome.next.inj hp
    exact .of_fields_eq rfl rfl rfl rfl rfl rfl rfl
  | writeX32 v =>
    obtain rfl := Host.Outcome.next.inj hp
    exact .of_fields_eq rfl rfl rfl rfl rfl rfl rfl
  | writeXp v =>
    obtain rfl := Host.Outcome.next.inj hp
    exact .of_fields_eq rfl rfl rfl rfl rfl rfl rfl
  | writeIlen v =>
    obtain ⟨-, rfl⟩ := perform_writeIlen_next_iff.1 hp
    exact .of_fields_eq rfl rfl rfl rfl rfl rfl rfl
  | writeIbuf i b =>
    obtain ⟨-, rfl⟩ := perform_writeIbuf_next_iff.1 hp
    exact .of_fields_eq rfl rfl rfl rfl rfl rfl rfl
  | writeCmd c => exact absurd rfl (hcmd c)
  | read q =>
    obtain ⟨-, rfl⟩ := perform_read_next_iff.1 hp
    exact .of_fields_eq rfl rfl rfl rfl rfl rfl rfl
  | reset => exact absurd rfl hreset

/-- R38: what a read returned is no item of the block, so every item reads as before. -/
@[simp] theorem State.readValue_setReadback (s : State) (v : Nat) (q : Readable) :
    (s.setReadback v).readValue q = s.readValue q := by cases q <;> rfl

/-- The host's list of actions is no item of the block. -/
@[simp] theorem State.readValue_setPending (s : State) (l : List HostAction) (q : Readable) :
    (s.setPending l).readValue q = s.readValue q := by cases q <;> rfl

/-- Settles O23: the response group by the cases of the host's actions; a read writes `readback` alone. -/
theorem responseStandsUntilTheNextCommand : Obligations.ResponseStandsUntilTheNextCommand := by
  refine ⟨fun a s t hp hcmd hreset => perform_sameResponseGroup hp hcmd hreset, fun r s t hp => ?_⟩
  obtain ⟨-, rfl⟩ := perform_read_next_iff.1 hp
  exact ⟨rfl, s.readValue_setReadback _⟩

/-- Settles O16: reset's OLEN is that of draw 0 and both buffers are empty. -/
theorem invariantHoldsAtReset : Obligations.InvariantHoldsAtReset :=
  State.Inv.of_drawn (Nat.zero_le _) (Memory.nil_wf _) le_rfl rfl rfl

/-- Settles O18: R40's table, field by field; the input is empty because ILEN is 0. -/
theorem resetValues : Obligations.ResetValues :=
  ⟨rfl, rfl, rfl, rfl, rfl, rfl, List.length_eq_zero_iff.1 State.reset.input_length⟩

/-- Settles O22: each write is one setter, and the two bounds are the ones `perform` checks. -/
theorem hostWritesSetOneItem : Obligations.HostWritesSetOneItem := by
  refine fun s => ⟨fun v => rfl, fun v => rfl, fun v => rfl, fun v hv => ?_, fun i b hi => ?_⟩
  · exact perform_writeIlen_next_iff.2 ⟨lt_two_pow_lenw_iff.1 hv, rfl⟩
  · rw [← Config.inCap_eq] at hi
    exact ⟨_, perform_writeIbuf_next_iff.2 ⟨hi, rfl⟩, s.ibufByte_setIbuf_self i b,
      fun k hk => s.ibufByte_setIbuf_ne b hk, rfl⟩

/-! ### What a read returns -/

/-- R39 with log 11: a read the host has succeeds and returns the item's current value. -/
theorem step_read {s : State} {q : Readable} {rest : List HostAction} (hp : s.pending = .read q :: rest)
    (hq : readableExists q = true) : ∃ t, step s = .next t ∧ t.readback = some (s.readValue q) :=
  ⟨_, (step_of_pending_cons hp).trans (perform_read_next_iff.2 ⟨hq, rfl⟩), by simp⟩

/-- Settles O24: every read the host has goes through `step_read`; the nine registers always exist. -/
theorem hostReadsReturnTheCurrentValue : Obligations.HostReadsReturnTheCurrentValue := by
  intro s rest
  refine ⟨fun p hmem hp => ?_, by decide, fun i hi hp => ?_, fun i hi hp => ?_⟩
  · have hreg : readableExists p.1 = true ∧ s.readValue p.1 = p.2 := by
      clear hp
      revert p
      simp [readableExists, State.readValue]
    exact hreg.2 ▸ step_read hp hreg.1
  · exact step_read hp (readableExists_ibuf.2 (Config.inCap_eq ▸ hi))
  · rw [← Config.inCap_eq] at hi
    exact step_read hp (readableExists_obuf.2 hi)

end Sys2Proof.Machine
end

/-! ### Proofs of the statements of 20_memory.md -/

section
/-!
SUPPORT. A command's ending is settled by what it reads (R94): states that agree on its reads end alike. The host's list of
actions to come is read by no command (R76, log 1), so every host action can be performed before or after that list is
replaced.
-/

namespace Sys2Proof.Machine

/-! ### States that agree on a command's reads end alike -/

/-- The state after a command's response: a success (R91) or an error (R92). -/
def State.respond (s : State) : Except ErrorKind Response → State
  | .ok r => s.succeeded r
  | .error e => s.failed e

@[simp] theorem State.respond_ok (s : State) (r : Response) : s.respond (.ok r) = s.succeeded r := rfl

@[simp] theorem State.respond_error (s : State) (e : ErrorKind) : s.respond (.error e) = s.failed e := rfl

@[simp] theorem State.respond_setPending (s : State) (o : Except ErrorKind Response) (l : List HostAction) :
    (s.setPending l).respond o = (s.respond o).setPending l := by cases o <;> rfl

/-- The command form `f` gives `s` and `t` one and the same response. -/
def EndsAlike (f : State → Result) (s t : State) : Prop :=
  ∃ o, f s = .next (s.respond o) ∧ f t = .next (t.respond o)

theorem AgreeOnReads.input {i : Instr} {s t : State} (h : AgreeOnReads i s t) (hr : readsInput i = true) :
    s.input = t.input := by
  simp only [State.input, ← h.ilen hr]
  exact List.map_congr_left fun k hk => h.ibuf hr k (List.mem_range.1 hk)

theorem emit_endsAlike {text : State → List Byte} {s t : State} (h : text s = text t) :
    EndsAlike (fun u => emit (text u) u) s t := ⟨.ok { out := some (text s) }, rfl, by simp [h, emit, succeed]⟩

theorem decodeExact_endsAlike (n : Nat) (f : List Byte → Response) {s t : State} (hlen : s.ilen = t.ilen)
    (hin : s.input = t.input) : EndsAlike (decodeExact n f) s t := by
  by_cases h : s.ilen = n
  · exact ⟨.ok (f s.input), decodeExact_ok h, by simp [hin, decodeExact_ok (hlen ▸ h)]⟩
  · exact ⟨.error .lengthMismatch, decodeExact_mismatch h, decodeExact_mismatch (hlen ▸ h)⟩

theorem withPort_endsAlike {pack : State → BitVec 16 → List Byte} {s t : State} (hxp : s.xp = t.xp)
    (hpack : pack s = pack t) : EndsAlike (fun u => withPort (pack u) u) s t := by
  obtain h | h := Nat.lt_or_ge 65535 s.xp.toNat
  · exact ⟨.error .rangeError, withPort_range h, withPort_range (hxp ▸ h)⟩
  · exact ⟨.ok { out := some (pack s (s.xp.extractLsb' 0 16)) }, withPort_ok h,
      by simp [hxp, hpack, withPort_ok (hxp ▸ h)]⟩

theorem execSdc32_endsAlike {s t : State} (h : s.x64 = t.x64) : EndsAlike execSdc32 s t := by
  simp only [EndsAlike, execSdc32, ← h]
  split
  · exact ⟨.ok _, rfl, rfl⟩
  · exact ⟨.error _, rfl, rfl⟩

theorem execParseaddr_endsAlike {s t : State} (h : s.input = t.input) : EndsAlike execParseaddr s t := by
  simp only [EndsAlike, execParseaddr, ← h]
  cases parseAddr s.input with
  | some a => exact ⟨.ok _, rfl, rfl⟩
  | none => exact ⟨.error _, rfl, rfl⟩

theorem execHexdec_endsAlike {s t : State} (h : s.input = t.input) : EndsAlike execHexdec s t := by
  simp only [EndsAlike, execHexdec, ← h]
  cases hexBytes s.input with
  | some bs => exact ⟨.ok _, rfl, rfl⟩
  | none => exact ⟨.error _, rfl, rfl⟩

/-- R94: the response of a command is a function of what it reads (R76). -/
theorem exec_endsAlike {i : Instr} {s t : State} (h : AgreeOnReads i s t) : EndsAlike (exec i) s t := by
  cases i with
  | hexenc => exact emit_endsAlike (congrArg hexText (h.input rfl))
  | hexdec => exact execHexdec_endsAlike (h.input rfl)
  | enc64Be => exact emit_endsAlike (congrArg (bytesInOrder .bigEndian 8) (h.x64 rfl))
  | enc64Le => exact emit_endsAlike (congrArg (bytesInOrder .littleEndian 8) (h.x64 rfl))
  | dec64Be => exact decodeExact_endsAlike 8 _ (h.ilen rfl) (h.input rfl)
  | dec64Le => exact decodeExact_endsAlike 8 _ (h.ilen rfl) (h.input rfl)
  | enc32Be => exact emit_endsAlike (congrArg (bytesInOrder .bigEndian 4) (h.x32 rfl))
  | enc32Le => exact emit_endsAlike (congrArg (bytesInOrder .littleEndian 4) (h.x32 rfl))
  | dec32Be => exact decodeExact_endsAlike 4 _ (h.ilen rfl) (h.input rfl)
  | dec32Le => exact decodeExact_endsAlike 4 _ (h.ilen rfl) (h.input rfl)
  | sdc32 => exact execSdc32_endsAlike (h.x64 rfl)
  | parseaddr => exact execParseaddr_endsAlike (h.input rfl)
  | fmtaddr => exact emit_endsAlike (congrArg addrText (h.x32 rfl))
  | addr2b => exact emit_endsAlike (congrArg (beBytes 4) (h.x32 rfl))
  | b2addr => exact decodeExact_endsAlike 4 _ (h.ilen rfl) (h.input rfl)
  | port2b => exact withPort_endsAlike (pack := fun _ => leBytes 2) (h.xp rfl) rfl
  | b2port => exact decodeExact_endsAlike 2 _ (h.ilen rfl) (h.input rfl)
  | ep2b => exact withPort_endsAlike (h.xp rfl) (congrArg endpointBytes (h.x32 rfl))
  | b2ep => exact decodeExact_endsAlike 6 _ (h.ilen rfl) (h.input rfl)

/-! ### The host's list is out of every action's sight -/

/-- R76: no command reads the host's list. -/
theorem agreeOnReads_setPending (i : Instr) (s : State) (l : List HostAction) : AgreeOnReads i s (s.setPending l) :=
  ⟨fun _ => rfl, fun _ => rfl, fun _ => rfl, fun _ => rfl, fun _ _ _ => rfl⟩

theorem exec_setPending {i : Instr} {s t : State} (l : List HostAction) (h : exec i s = .next t) :
    exec i (s.setPending l) = .next (t.setPending l) := by
  obtain ⟨o, hs, hl⟩ := exec_endsAlike (agreeOnReads_setPending i s l)
  obtain rfl := Host.Outcome.next.inj (hs.symm.trans h)
  rw [hl, State.respond_setPending]

theorem issue_of_decode_ok {c : Byte} {i : Instr} (h : decode c = .ok i) (s : State) : issue c s = exec i s := by
  simp [issue, h]

theorem issue_of_decode_error {c : Byte} {e : IllegalCause} (h : decode c = .error e) (s : State) :
    issue c s = .next (s.failed .illegalCommand) := by simp [issue, h, raiseError]

theorem issue_setPending {c : Byte} {s t : State} (l : List HostAction) (h : issue c s = .next t) :
    issue c (s.setPending l) = .next (t.setPending l) := by
  cases hd : decode c with
  | ok i =>
    rw [issue_of_decode_ok hd] at h ⊢
    exact exec_setPending l h
  | error e =>
    rw [issue_of_decode_error hd] at h ⊢
    obtain rfl := Host.Outcome.next.inj h
    rfl

/-- R57 with log 1: an action does to the block what it does, whatever the host is still to do after it. -/
theorem perform_setPending {a : HostAction} {s t : State} (l : List HostAction) (h : perform a s = .next t) :
    perform a (s.setPending l) = .next (t.setPending l) := by
  cases a with
  | writeX64 v =>
    obtain rfl := Host.Outcome.next.inj h
    rfl
  | writeX32 v =>
    obtain rfl := Host.Outcome.next.inj h
    rfl
  | writeXp v =>
    obtain rfl := Host.Outcome.next.inj h
    rfl
  | writeIlen v =>
    obtain ⟨hv, rfl⟩ := perform_writeIlen_next_iff.1 h
    exact perform_writeIlen_next_iff.2 ⟨hv, rfl⟩
  | writeIbuf i b =>
    obtain ⟨hi, rfl⟩ := perform_writeIbuf_next_iff.1 h
    exact perform_writeIbuf_next_iff.2 ⟨hi, rfl⟩
  | writeCmd c => exact issue_setPending l h
  | read q =>
    obtain ⟨hq, rfl⟩ := perform_read_next_iff.1 h
    exact perform_read_next_iff.2 ⟨hq, by rw [State.readValue_setPending]; rfl⟩
  | reset =>
    obtain rfl := Host.Outcome.next.inj h
    rfl

/-- Log 12: whether the host has an action does not depend on the state. -/
theorem perform_refused_of_refused {a : HostAction} {s : State} {r : Refusal} (h : perform a s = .refused r)
    (t : State) : perform a t = .refused r := perform_refused_iff.2 (perform_refused_iff.1 h)

/-! ### Runs and sequences of actions, one action at a time -/

theorem run_of_step_next {s t : State} (k : Nat) (h : step s = .next t) :
    Host.Core.run Sys2Proof.core (k + 1) s = Host.Core.run Sys2Proof.core k t := by
  have hcore : Sys2Proof.core.step s = .next t := h
  simp [Host.Core.run, hcore]

theorem run_of_step_refused {s : State} {r : Refusal} (k : Nat) (h : step s = .refused r) :
    Host.Core.run Sys2Proof.core (k + 1) s = .refused r := by
  have hcore : Sys2Proof.core.step s = .refused r := h
  simp [Host.Core.run, hcore]

theorem performAll_cons_of_next {a : HostAction} {s t : State} (as : List HostAction) (h : perform a s = .next t) :
    performAll (a :: as) s = performAll as t := by simp [performAll, h]

theorem performAll_cons_of_refused {a : HostAction} {s : State} {r : Refusal} (as : List HostAction)
    (h : perform a s = .refused r) : performAll (a :: as) s = .refused r := by simp [performAll, h]

/-- The step of a state whose list starts with `a` is `a`, performed on that state with `a` taken off its list. -/
theorem step_setPending_cons (s : State) (a : HostAction) (as : List HostAction) :
    step (s.setPending (a :: as)) = perform a (s.setPending as) := step_of_pending_cons rfl

/-- Settles O7, by induction on the list: the first step and the first action do the same, up to the list that is left. -/
theorem runPerformsActionsInOrder : Obligations.RunPerformsActionsInOrder := by
  intro as
  induction as with
  | nil => exact fun s => rfl
  | cons a as ih =>
    intro s
    have hstep := step_setPending_cons s a as
    cases hp : perform a s with
    | next t =>
      have hrun := run_of_step_next as.length (hstep.trans (perform_setPending as hp))
      have hall := performAll_cons_of_next as (perform_setPending [] hp)
      exact hrun.trans ((ih t).trans hall.symm)
    | fault f => exact nomatch f
    | refused r =>
      have hrun := run_of_step_refused as.length (hstep.trans (perform_refused_of_refused hp _))
      have hall := performAll_cons_of_refused as (perform_refused_of_refused hp (s.setPending []))
      exact hrun.trans hall.symm

/-! ### The word a state is prepared with -/

/-- A word of a table row that decodes at all decodes as the byte it stands for (R70). -/
theorem decodeTableWord_eq_some_iff {nbits w : Nat} {i : Instr} :
    decodeTableWord nbits w = some i ↔ decode (BitVec.ofNat 8 (w % 2 ^ nbits)) = .ok i := by
  cases h : decode (BitVec.ofNat 8 (w % 2 ^ nbits)) <;> simp [decodeTableWord, h]

/-- Log 2: the step of a prepared state issues the prepared word on the state as it was. -/
theorem step_withFetchWord (s : State) (nbits w : Nat) :
    step (s.withFetchWord nbits w) = issue (BitVec.ofNat 8 (w % 2 ^ nbits)) s := step_setPending_cons s _ s.pending

/-- Settles O6: the step issues the word, and the word decodes to the instruction. -/
theorem fetchWordRunsNext : Obligations.FetchWordRunsNext := by
  intro s w i h
  rw [step_withFetchWord, issue_of_decode_ok (decodeTableWord_eq_some_iff.1 h)]

end Sys2Proof.Machine
end

/-! ### Proofs of the statements of 30_encoding.md -/

section
/-!
SUPPORT. The command word (R70 to R75): the decoder's list of words against the encoder's fields, and R75's causes as a
function of the number a word is.
-/

namespace Sys2Proof

/-! ### The legal words are the words of the instructions -/

/-- R74's list is what R70 to R72 assemble. -/
theorem legalWord_eq_some_iff {c : Byte} {i : Instr} : legalWord c = some i ↔ c = encode i := by
  constructor
  · intro h
    refine BitVec.eq_of_toNat_eq ?_
    simp only [legalWord] at h
    split at h <;> cases h <;> assumption
  · rintro rfl
    cases i <;> rfl

/-- The decoder accepts a word as an instruction exactly when it is the word of that instruction. -/
theorem decode_eq_ok_iff {c : Byte} {i : Instr} : decode c = .ok i ↔ c = encode i := by
  rw [← legalWord_eq_some_iff, decode]
  cases legalWord c <;> simp

@[simp] theorem decode_encode (i : Instr) : decode (encode i) = .ok i := decode_eq_ok_iff.2 rfl

/-! ### Listings -/

/-- One byte of a listing: it is legal and so is the rest (R79). -/
theorem disassemble_cons_eq_ok_iff {c : Byte} {cs : List Byte} {is : List Instr} :
    disassemble (c :: cs) = .ok is ↔ ∃ i js, decode c = .ok i ∧ disassemble cs = .ok js ∧ is = i :: js := by
  rw [disassemble]
  cases decode c <;> cases disassemble cs <;> simp [eq_comm]

/-- R79: a byte sequence disassembles to a listing exactly when the listing assembles to it. -/
theorem disassemble_eq_ok_iff {cs : List Byte} {is : List Instr} : disassemble cs = .ok is ↔ assemble is = cs := by
  induction cs generalizing is with
  | nil => cases is <;> simp [disassemble, assemble]
  | cons c cs ih =>
    simp only [disassemble_cons_eq_ok_iff, decode_eq_ok_iff, ih]
    constructor
    · rintro ⟨i, js, rfl, rfl, rfl⟩
      rfl
    · intro h
      cases is with
      | nil => simp [assemble] at h
      | cons i js =>
        obtain ⟨hc, hcs⟩ := List.cons.inj h
        exact ⟨i, js, hc.symm, hcs, rfl⟩

@[simp] theorem assemble_length (is : List Instr) : (assemble is).length = is.length := by
  induction is with
  | nil => rfl
  | cons i is ih => simp [assemble, ih]

/-- Settles O4: disassembly is the inverse of assembly, byte by byte. -/
theorem assembleDisassembleAgree : Obligations.AssembleDisassembleAgree :=
  ⟨fun is => ⟨disassemble_eq_ok_iff.2 rfl, assemble_length is⟩, fun _ _ => disassemble_eq_ok_iff.1⟩

/-! ### The table of nineteen words -/

/-- The nineteen instructions in the order of R74's table. -/
def Instr.all : List Instr :=
  [.hexenc, .hexdec, .enc64Be, .enc64Le, .dec64Be, .dec64Le, .enc32Be, .enc32Le, .dec32Be, .dec32Le, .sdc32, .parseaddr,
    .fmtaddr, .addr2b, .b2addr, .port2b, .b2port, .ep2b, .b2ep]

theorem Instr.mem_all (i : Instr) : i ∈ Instr.all := by cases i <;> decide

/-- R74: the table of the instructions with their words, read as a relation. -/
theorem mem_wordTable_iff {n : Nat} {i : Instr} :
    (n, i) ∈ Instr.all.map (fun j => ((encode j).toNat, j)) ↔ n = (encode i).toNat := by
  simp only [List.mem_map, Prod.mk.injEq]
  constructor
  · rintro ⟨j, -, rfl, rfl⟩
    rfl
  · rintro rfl
    exact ⟨i, i.mem_all, rfl, rfl⟩

/-- Settles O1: R74's table is, row by row, the list of the instructions with the words they assemble to. -/
theorem decoderAcceptsExactlyNineteenWords : Obligations.DecoderAcceptsExactlyNineteenWords := fun _ _ =>
  decode_eq_ok_iff.trans (BitVec.toNat_inj.symm.trans mem_wordTable_iff.symm)

/-! ### The causes of R75 -/

/-- R70: `RSV` is bits 7:6. -/
theorem rsvField_eq_zero_iff (c : Byte) : rsvField c = 0 ↔ c.toNat < 0x40 := by
  rw [← BitVec.toNat_inj, rsvField, BitVec.extractLsb'_toNat, Nat.shiftRight_eq_div_pow]
  show _ = 0 ↔ _
  omega

/-- R70: `ORD` is bits 5:4. -/
theorem ordField_eq_iff (c : Byte) (o : BitVec 2) : ordField c = o ↔ c.toNat / 16 % 4 = o.toNat := by
  rw [← BitVec.toNat_inj, ordField, BitVec.extractLsb'_toNat, Nat.shiftRight_eq_div_pow]

/-- R70: `OPC` is bits 3:0. -/
theorem opcField_toNat (c : Byte) : (opcField c).toNat = c.toNat % 16 := by
  rw [opcField, BitVec.extractLsb'_toNat, Nat.shiftRight_zero]

theorem opcField_eq_zero_iff (c : Byte) : opcField c = 0 ↔ c.toNat % 16 = 0 := by
  rw [← BitVec.toNat_inj, opcField_toNat]
  rfl

/-- R72: the operations that take no order tag are those outside 3 to 6. -/
theorem takesOrder_eq_false_iff (opc : BitVec 4) : takesOrder opc = false ↔ opc.toNat < 3 ∨ 6 < opc.toNat := by
  revert opc
  decide

/-- R75's table as a function of the number the word is. -/
theorem cause_fieldsOf (c : Byte) : (fieldsOf c).cause =
    if ¬c.toNat < 0x40 then some .reservedBits
    else if c.toNat / 16 % 4 = 3 then some .reservedOrder
    else if c.toNat % 16 = 0 then some .reservedOpcode
    else if ¬c.toNat / 16 % 4 = 0 ∧ (c.toNat % 16 < 3 ∨ 6 < c.toNat % 16) then some .unexpectedTag
    else if c.toNat / 16 % 4 = 0 ∧ ¬(c.toNat % 16 < 3 ∨ 6 < c.toNat % 16) then some .missingTag
    else none := by
  simp only [Fields.cause, fieldsOf, ne_eq, rsvField_eq_zero_iff, ordField_eq_iff, opcField_eq_zero_iff,
    ← Bool.not_eq_false, takesOrder_eq_false_iff, opcField_toNat]
  rfl

/-- R70, R72: fields are legal when nothing reserved is used and a tag stands exactly where one is taken. -/
theorem Fields.cause_eq_none_iff (f : Fields) :
    f.cause = none ↔ f.rsv = 0 ∧ f.ord ≠ 3 ∧ f.opc ≠ 0 ∧ (f.ord = 0 ↔ takesOrder f.opc = false) := by
  cases ht : takesOrder f.opc <;> simp [Fields.cause, ht, ite_eq_iff]

/-- The legal words by the number the word is. -/
theorem cause_fieldsOf_eq_none_iff (c : Byte) : (fieldsOf c).cause = none ↔
    c.toNat < 0x40 ∧ c.toNat / 16 % 4 ≠ 3 ∧ c.toNat % 16 ≠ 0 ∧
      (c.toNat / 16 % 4 = 0 ↔ c.toNat % 16 < 3 ∨ 6 < c.toNat % 16) := by
  simp only [Fields.cause_eq_none_iff, fieldsOf, ne_eq, rsvField_eq_zero_iff, ordField_eq_iff, opcField_eq_zero_iff,
    takesOrder_eq_false_iff, opcField_toNat]
  rfl

/-- R74's list and R75's table divide the 256 words between them. -/
theorem legalWord_eq_none_iff {c : Byte} : legalWord c = none ↔ (fieldsOf c).cause ≠ none := by
  constructor
  · intro h
    simp only [legalWord] at h
    split at h <;> simp only [imp_false, reduceCtorEq] at *
    rw [ne_eq, cause_fieldsOf_eq_none_iff]
    omega
  · intro h
    by_contra hs
    obtain ⟨i, hi⟩ := Option.ne_none_iff_exists'.1 hs
    obtain rfl := legalWord_eq_some_iff.1 hi
    exact h (by cases i <;> rfl)

/-- The cause a word is rejected for is the first of R75's table that its fields have. -/
theorem decode_eq_error_iff {c : Byte} {e : IllegalCause} : decode c = .error e ↔ (fieldsOf c).cause = some e := by
  rw [decode, causeOf]
  cases hl : legalWord c with
  | none =>
    obtain ⟨f, hf⟩ := Option.ne_none_iff_exists'.1 (legalWord_eq_none_iff.1 hl)
    simp [hf]
  | some i =>
    have hc : (fieldsOf c).cause = none := by
      by_contra h
      simp [legalWord_eq_none_iff.2 h] at hl
    simp [hc]

theorem exists_decode_eq_ok_iff {c : Byte} : (∃ i, decode c = .ok i) ↔ (fieldsOf c).cause = none := by
  rw [← not_iff_not, ← ne_eq (fieldsOf c).cause, ← legalWord_eq_none_iff, decode]
  cases legalWord c <;> simp

/-- R75: no word from `0x30` up is legal. -/
theorem legalWord_eq_none_of_le {c : Byte} (h : 0x30 ≤ c.toNat) : legalWord c = none := by
  rw [legalWord_eq_none_iff, ne_eq, cause_fieldsOf_eq_none_iff]
  omega

/-- R75: the 208 words from `0x30` up are illegal, and so are 29 of the 48 below. -/
theorem countP_illegal_words : (List.range 256).countP (fun n => (legalWord (BitVec.ofNat 8 n)).isNone) = 237 := by
  have hlow : (List.range 48).countP (fun n => (legalWord (BitVec.ofNat 8 n)).isNone) = 29 := by decide
  have hhigh : ((List.range 208).map (48 + ·)).countP (fun n => (legalWord (BitVec.ofNat 8 n)).isNone) = 208 := by
    rw [List.countP_eq_length.2 (List.forall_mem_map.2 fun k hk => ?_), List.length_map, List.length_range]
    have := List.mem_range.1 hk
    rw [Option.isNone_iff_eq_none]
    refine legalWord_eq_none_of_le ?_
    rw [BitVec.toNat_ofNat]
    omega
  rw [show 256 = 48 + 208 from rfl, List.range_add, List.countP_append, hlow, hhigh]

/-! ### The order tag (R72) -/

/-- R71: the four integer operations. -/
theorem takesOrder_of_mem {o : BitVec 4} (h : o ∈ [3, 4, 5, 6]) : o ≠ 0 ∧ takesOrder o = true := by
  revert o
  decide

/-- R71: the eleven other operations. -/
theorem not_takesOrder_of_mem {o : BitVec 4} (h : o ∈ [1, 2, 7, 8, 9, 10, 11, 12, 13, 14, 15]) :
    o ≠ 0 ∧ takesOrder o = false := by
  revert o
  decide

/-- R72: with a tag taken, the two orders are the legal tags. -/
theorem orderTag_iff (o : BitVec 2) : o ≠ 3 ∧ o ≠ 0 ↔ o = 0b01 ∨ o = 0b10 := by
  revert o
  decide

/-- The `ORD` bits of an instruction's word are those of its order. -/
theorem ordField_encode (i : Instr) : ordField (encode i) = orderBits i.order := by cases i <;> rfl

theorem orderBits_eq_bigEndian_iff {o : Option Order} : orderBits o = 0b01 ↔ o = some .bigEndian := by
  obtain _ | _ | _ := o <;> decide

theorem orderBits_eq_littleEndian_iff {o : Option Order} : orderBits o = 0b10 ↔ o = some .littleEndian := by
  obtain _ | _ | _ := o <;> decide

/-- R72 on the words that use no reserved bits and a real operation. -/
theorem exists_decode_eq_ok_iff_tag {c : Byte} (hrsv : rsvField c = 0) (hopc : opcField c ≠ 0) :
    (∃ i, decode c = .ok i) ↔ ordField c ≠ 3 ∧ (ordField c = 0 ↔ takesOrder (opcField c) = false) := by
  rw [exists_decode_eq_ok_iff, Fields.cause_eq_none_iff]
  exact ⟨fun ⟨_, hord, _, htag⟩ => ⟨hord, htag⟩, fun ⟨hord, htag⟩ => ⟨hrsv, hord, hopc, htag⟩⟩

end Sys2Proof

namespace Sys2Proof.Machine

/-! ### What an illegal word does -/

/-- R93 on an error: the request group is not touched. -/
theorem sameRequest_failed (e : ErrorKind) (s : State) : SameRequest s (s.failed e) :=
  ⟨rfl, rfl, rfl, rfl, fun _ => rfl, rfl, rfl⟩

/-- Settles O2: the causes' ranges from `cause_fieldsOf`; an illegal word ends in one error response for every cause. -/
theorem illegalWordsByCause : Obligations.IllegalWordsByCause := by
  refine ⟨?reservedBits, ?reservedOrder, ?reservedOpcode, ?unexpectedTag, ?missingTag, countP_illegal_words,
    fun c e s h => ⟨_, issue_of_decode_error h s, rfl, sameRequest_failed _ s⟩, ?notReported⟩
  case notReported =>
    intro c d e f s t u hc hd ht hu
    obtain rfl := Host.Outcome.next.inj ((issue_of_decode_error hc s).symm.trans ht)
    obtain rfl := Host.Outcome.next.inj ((issue_of_decode_error hd s).symm.trans hu)
    rfl
  case reservedBits | reservedOrder | reservedOpcode | unexpectedTag | missingTag =>
    intro c
    rw [decode_eq_error_iff, cause_fieldsOf]
    split_ifs <;> simp <;> omega

/-- Settles O53: every illegal word ends in the same error response. -/
theorem illegalCauseIsNotRecorded : Obligations.IllegalCauseIsNotRecorded := fun _ _ _ _ s hc hd =>
  (issue_of_decode_error hc s).trans (issue_of_decode_error hd s).symm

/-- Settles O3: a tag is legal exactly where `takesOrder` wants one; a legal word's tag is its instruction's order. -/
theorem orderTagExactlyOnIntegerCommands : Obligations.OrderTagExactlyOnIntegerCommands := by
  refine ⟨fun c hord => ?_, fun c hrsv hopc => ?_, fun c hrsv hopc => ?_, fun c i h => ?_⟩
  · cases h : decode c with
    | error e => exact ⟨e, rfl⟩
    | ok i =>
      obtain ⟨-, hne, -⟩ := (Fields.cause_eq_none_iff _).1 (exists_decode_eq_ok_iff.1 ⟨i, h⟩)
      exact absurd hord hne
  · obtain ⟨hne, htag⟩ := takesOrder_of_mem hopc
    rw [exists_decode_eq_ok_iff_tag hrsv hne, htag, ← orderTag_iff]
    simp
  · obtain ⟨hne, htag⟩ := not_takesOrder_of_mem hopc
    rw [exists_decode_eq_ok_iff_tag hrsv hne, htag]
    constructor
    · rintro ⟨-, h⟩
      exact h.2 rfl
    · intro h
      simp [h]
  · obtain rfl := decode_eq_ok_iff.1 h
    rw [ordField_encode, orderBits_eq_bigEndian_iff, orderBits_eq_littleEndian_iff]
    exact ⟨Iff.rfl, Iff.rfl⟩

end Sys2Proof.Machine
end

section
/-!
SUPPORT. The listing lines WRB and CPY (R80) as the state they end in: the input replaced, the host's last read at most
changed, and nothing else.
-/

namespace Sys2Proof.Machine

/-! ### Sequences of actions -/

/-- R57: two sequences of actions in a row, the first of which ends. -/
theorem performAll_append_of_next {as : List HostAction} {s t : State} (bs : List HostAction)
    (h : performAll as s = .next t) : performAll (as ++ bs) s = performAll bs t := by
  induction as generalizing s with
  | nil =>
    obtain rfl := Host.Outcome.next.inj h
    rfl
  | cons a as ih =>
    cases hp : perform a s with
    | next u =>
      rw [performAll_cons_of_next as hp] at h
      exact (performAll_cons_of_next (as ++ bs) hp).trans (ih h)
    | fault f => exact nomatch f
    | refused r => exact nomatch (performAll_cons_of_refused as hp).symm.trans h

/-- R38: reads that the host has, the first of them `q`, leave a value read and no other trace. -/
theorem performAll_reads {q : Readable} {qs : List Readable} (s : State)
    (h : ∀ r ∈ q :: qs, readableExists r = true) :
    ∃ v, performAll ((q :: qs).map .read) s = .next (s.setReadback v) := by
  induction qs generalizing q s with
  | nil => exact ⟨_, performAll_cons_of_next [] (perform_read_next_iff.2 ⟨h q (by simp), rfl⟩)⟩
  | cons r qs ih =>
    obtain ⟨hq, hqs⟩ := List.forall_mem_cons.1 h
    obtain ⟨v, hv⟩ := ih (s.setReadback (s.readValue q)) hqs
    exact ⟨v, (performAll_cons_of_next _ (perform_read_next_iff.2 ⟨hq, rfl⟩)).trans hv⟩

/-! ### The bytes of WRB -/

/-- The buffer after writes of a sequence at the indices `k, k + 1, ...`. -/
def Memory.writeFrom : Memory → Nat → List Byte → Memory
  | m, _, [] => m
  | m, k, b :: bs => Memory.writeFrom (m.write k b) (k + 1) bs

theorem Memory.read?_writeFrom_of_lt (bs : List Byte) {m : Memory} {i k : Nat} (h : i < k) :
    (m.writeFrom k bs).read? i = m.read? i := by
  induction bs generalizing m k with
  | nil => rfl
  | cons b bs ih =>
    rw [Memory.writeFrom, ih (Nat.lt_succ_of_lt h), Memory.read?_write_ne _ _ (Nat.ne_of_lt h)]

theorem Memory.read?_writeFrom {bs : List Byte} (m : Memory) (k : Nat) {i : Nat} (h : i < bs.length) :
    (m.writeFrom k bs).read? (k + i) = bs[i]? := by
  induction bs generalizing m k i with
  | nil => exact absurd h (Nat.not_lt_zero i)
  | cons b bs ih =>
    cases i with
    | zero => exact (Memory.read?_writeFrom_of_lt bs (Nat.lt_succ_self k)).trans (Memory.read?_write_self m k b)
    | succ i =>
      have := ih (m.write k b) (k + 1) (Nat.lt_of_succ_lt_succ h)
      rwa [Nat.add_right_comm, Nat.add_assoc] at this

/-- R80: the state `WRB bs` ends in. -/
def State.withInput (s : State) (bs : List Byte) : State :=
  { s with ibuf := s.ibuf.writeFrom 0 bs, ilen := bs.length }

theorem performAll_writeBytesFrom {bs : List Byte} {k : Nat} (s : State) (h : k + bs.length ≤ Config.inCap) :
    performAll (writeBytesFrom k bs) s = .next { s with ibuf := s.ibuf.writeFrom k bs } := by
  induction bs generalizing s k with
  | nil => rfl
  | cons b bs ih =>
    rw [List.length_cons] at h
    have hp := perform_writeIbuf_next_iff (b := b) (s := s).2 ⟨show k < Config.inCap by omega, rfl⟩
    exact (performAll_cons_of_next _ hp).trans (ih _ (by omega))

theorem performAll_listWrb {bs : List Byte} (s : State) (h : bs.length ≤ Config.inCap) :
    performAll (listWrb bs) s = .next (s.withInput bs) := by
  rw [listWrb, performAll_append_of_next _ (performAll_writeBytesFrom s (by rwa [Nat.zero_add]))]
  exact performAll_cons_of_next [] (perform_writeIlen_next_iff.2 ⟨h, rfl⟩)

theorem State.ibufByte_withInput (s : State) {bs : List Byte} {k : Nat} (h : k < bs.length) :
    (s.withInput bs).ibufByte k = bs[k] := by
  have hread := s.ibuf.read?_writeFrom 0 h
  rw [Nat.zero_add, List.getElem?_eq_getElem h] at hread
  simp [State.ibufByte, State.withInput, hread]

theorem State.input_withInput (s : State) (bs : List Byte) : (s.withInput bs).input = bs := by
  refine List.ext_getElem (State.input_length _) fun k h h' => ?_
  simp [State.input, State.ibufByte_withInput s h']

theorem State.sameResponseGroup_withInput (s : State) (bs : List Byte) : SameResponseGroup s (s.withInput bs) :=
  .of_fields_eq rfl rfl rfl rfl rfl rfl rfl

/-! ### CPY -/

/-- R80: CPY ends as WRB of the output does, but for what the host's last read returned. -/
theorem performAll_listCpy {s : State} (h : s.olen ≤ Config.inCap) :
    ∃ v, performAll (listCpy s) s = .next ((s.setReadback v).withInput s.output) := by
  have hreads : ∀ q ∈ Readable.olen :: (List.range s.olen).map .obuf, readableExists q = true := by
    refine List.forall_mem_cons.2 ⟨rfl, List.forall_mem_map.2 fun i hi => readableExists_obuf.2 ?_⟩
    have hcap : Config.outCap = 2 * Config.inCap := rfl
    have := List.mem_range.1 hi
    omega
  obtain ⟨v, hv⟩ := performAll_reads s hreads
  rw [List.map_cons, List.map_map] at hv
  refine ⟨v, (performAll_append_of_next (listWrb s.output) hv).trans (performAll_listWrb _ ?_)⟩
  rwa [State.output_length]

/-- Settles O25: WRB ends with its bytes as the input, and CPY is reads followed by WRB of the output. -/
theorem listingLinesSetTheInput : Obligations.ListingLinesSetTheInput := by
  refine ⟨fun bs s h => ?_, fun s h => ?_⟩
  · exact ⟨_, performAll_listWrb s h, s.input_withInput bs, s.sameResponseGroup_withInput bs, rfl, rfl, rfl⟩
  · obtain ⟨v, hv⟩ := performAll_listCpy h
    refine ⟨_, hv, ⟨s.output_length, fun k hk => ?_⟩, .of_fields_eq rfl rfl rfl rfl rfl rfl rfl, rfl, rfl, rfl⟩
    rw [State.ibufByte_withInput _ (by rwa [State.output_length])]
    simp [State.output]

end Sys2Proof.Machine
end

/-! ### Proofs of the statements of 40_execution.md -/

section
/-!
SUPPORT. What a command word leaves behind (R90 to R94): every word ends in `State.respond` of some response, which
touches nothing but the response group (R93). That the defined fields are settled by what a command reads (R94) needs the
response two states share to ASSIGN those fields; `exec_endsAlike` alone would allow one that leaves a fitting free value
there.
-/

namespace Sys2Proof.Machine

/-! ### What a word that has run can have done -/

theorem exec_next_cases {i : Instr} {s t : State} (h : exec i s = .next t) :
    (∃ r, Assigns i s r ∧ t = s.succeeded r) ∨ ∃ e, errorOf i = some e ∧ t = s.failed e := by
  obtain ⟨r, hr, hs⟩ | ⟨e, he, hs⟩ := exec_cases i s
  · exact .inl ⟨r, hr, Host.Outcome.next.inj (h.symm.trans hs)⟩
  · exact .inr ⟨e, he, Host.Outcome.next.inj (h.symm.trans hs)⟩

/-- R90: legal or illegal, a word ends in a success response or an error response. -/
theorem issue_next_eq_respond {c : Byte} {s t : State} (h : issue c s = .next t) : ∃ o, t = s.respond o := by
  obtain ⟨i, -, hs⟩ | ⟨e, -, hs⟩ := issue_cases c s
  · obtain ⟨r, -, rfl⟩ | ⟨e, -, rfl⟩ := exec_next_cases (hs.symm.trans h)
    · exact ⟨.ok r, rfl⟩
    · exact ⟨.error e, rfl⟩
  · exact ⟨.error .illegalCommand, Host.Outcome.next.inj (h.symm.trans hs)⟩

/-- R93: a response, success or error, leaves the request group and what is the host's own. -/
theorem sameRequest_respond (s : State) (o : Except ErrorKind Response) : SameRequest s (s.respond o) := by
  cases o with
  | ok r => exact ⟨rfl, rfl, rfl, rfl, fun _ => rfl, rfl, rfl⟩
  | error e => exact sameRequest_failed e s

theorem allUnspecified_failed (e : ErrorKind) (s : State) : AllUnspecified (s.failed e) :=
  ⟨rfl, rfl, rfl, rfl, fun _ => rfl⟩

/-- Settles O5: the step performs the write of CMD, and the word decodes to the instruction. -/
theorem stepRunsTheDecodedInstruction : Obligations.StepRunsTheDecodedInstruction := fun s _ rest _ hp hd =>
  (step_of_pending_cons hp).trans (issue_of_decode_ok hd (s.setPending rest))

/-- Settles O8: a word ends in a response, and no response touches the request group. -/
theorem commandsLeaveTheRequestGroup : Obligations.CommandsLeaveTheRequestGroup := by
  intro c s t h
  obtain ⟨o, rfl⟩ := issue_next_eq_respond h
  exact sameRequest_respond s o

/-- Settles O9: the two endings of `exec`, and the one of an illegal word. -/
theorem everyCommandEnds : Obligations.EveryCommandEnds := by
  refine ⟨fun i s => ?_, fun c e s h => ⟨_, issue_of_decode_error h s, rfl⟩⟩
  obtain ⟨r, -, hs⟩ | ⟨e, he, hs⟩ := exec_cases i s
  · exact ⟨_, hs, .inl rfl⟩
  · exact ⟨_, hs, .inr ⟨e, he, rfl⟩⟩

/-- Settles O12: of the two responses only the error response has an error for STATUS. -/
theorem errorLeavesNoResult : Obligations.ErrorLeavesNoResult := by
  intro c s t e h hstatus
  obtain ⟨o, rfl⟩ := issue_next_eq_respond h
  cases o with
  | ok r => simp at hstatus
  | error e' => exact ⟨allUnspecified_failed e' s, rfl, rfl, sameRequest_failed e' s⟩

/-- Settles O11: an item the command does not define is one its response did not assign, and so was drawn anew. -/
theorem successDefinesOnlyItsItems : Obligations.SuccessDefinesOnlyItsItems := by
  intro i s t h hok
  obtain ⟨r, hr, rfl⟩ | ⟨e, -, rfl⟩ := exec_next_cases h
  · refine ⟨rfl, fun hd => ?y64, fun hd => ?y32, fun hd => ?yp, fun hd => ?noOutput, fun hd k hk => ?tail⟩
    case y64 =>
      have hnone : r.y64 = none := by simpa [hd] using hr.y64
      simp [hnone]
    case y32 =>
      have hnone : r.y32 = none := by simpa [hd] using hr.y32
      simp [hnone]
    case yp =>
      have hnone : r.yp = none := by simpa [hd] using hr.yp
      simp [hnone]
    case noOutput =>
      have hnone : r.out = none := by simpa [hd] using hr.out
      exact ⟨by simp [hnone], State.obufByte_succeeded_none s hnone⟩
    case tail =>
      obtain ⟨bs, hbs⟩ := Option.isSome_iff_exists.1 (hr.out.trans hd)
      exact State.obufByte_succeeded_tail s hbs (by simpa [hbs] using hk)
  · simp at hok

/-! ### One response for all states that agree on the reads, with the defined items assigned -/

/-- The response assigns exactly the items that command `i` defines (R20): `Assigns` without its bound on the output,
the one part that speaks of the state. -/
structure Response.Covers (r : Response) (i : Instr) : Prop where
  y64 : r.y64.isSome = definesY64 i
  y32 : r.y32.isSome = definesY32 i
  yp : r.yp.isSome = definesYp i
  out : r.out.isSome = definesOutput i

/-- `EndsAlike` with a response that, on success, covers command `i`. -/
def RespondsAlike (i : Instr) (f : State → Result) (s t : State) : Prop :=
  ∃ o, f s = .next (s.respond o) ∧ f t = .next (t.respond o) ∧ ∀ r, o = .ok r → r.Covers i

theorem respondsAlike_ok {i : Instr} {f : State → Result} {s t : State} {r : Response} (hr : r.Covers i)
    (hs : f s = .next (s.succeeded r)) (ht : f t = .next (t.succeeded r)) : RespondsAlike i f s t :=
  ⟨.ok r, hs, ht, fun _ h => Except.ok.inj h ▸ hr⟩

theorem respondsAlike_error {i : Instr} {f : State → Result} {s t : State} {e : ErrorKind}
    (hs : f s = .next (s.failed e)) (ht : f t = .next (t.failed e)) : RespondsAlike i f s t :=
  ⟨.error e, hs, ht, nofun⟩

theorem emit_respondsAlike {i : Instr} {text : State → List Byte} {s t : State}
    (hi : ∀ bs, ({ out := some bs } : Response).Covers i) (h : text s = text t) :
    RespondsAlike i (fun u => emit (text u) u) s t := respondsAlike_ok (hi (text s)) rfl (by rw [h]; rfl)

theorem decodeExact_respondsAlike {i : Instr} {n : Nat} {f : List Byte → Response} {s t : State}
    (hi : ∀ bs, (f bs).Covers i) (hlen : s.ilen = t.ilen) (hin : s.input = t.input) :
    RespondsAlike i (decodeExact n f) s t := by
  by_cases h : s.ilen = n
  · exact respondsAlike_ok (hi s.input) (decodeExact_ok h) (hin ▸ decodeExact_ok (hlen ▸ h))
  · exact respondsAlike_error (decodeExact_mismatch h) (decodeExact_mismatch (hlen ▸ h))

theorem withPort_respondsAlike {i : Instr} {pack : State → BitVec 16 → List Byte} {s t : State}
    (hi : ∀ bs, ({ out := some bs } : Response).Covers i) (hxp : s.xp = t.xp) (hpack : pack s = pack t) :
    RespondsAlike i (fun u => withPort (pack u) u) s t := by
  obtain h | h := Nat.lt_or_ge 65535 s.xp.toNat
  · exact respondsAlike_error (withPort_range h) (withPort_range (hxp ▸ h))
  · exact respondsAlike_ok (hi _) (withPort_ok h) (by rw [hpack, hxp, withPort_ok (hxp ▸ h)])

theorem execSdc32_respondsAlike {s t : State} (h : s.x64 = t.x64) : RespondsAlike .sdc32 execSdc32 s t := by
  simp only [RespondsAlike, execSdc32, ← h]
  split
  · exact ⟨.ok _, rfl, rfl, fun _ hr => Except.ok.inj hr ▸ ⟨rfl, rfl, rfl, rfl⟩⟩
  · exact ⟨.error _, rfl, rfl, nofun⟩

theorem execParseaddr_respondsAlike {s t : State} (h : s.input = t.input) :
    RespondsAlike .parseaddr execParseaddr s t := by
  simp only [RespondsAlike, execParseaddr, ← h]
  cases parseAddr s.input with
  | some a => exact ⟨.ok _, rfl, rfl, fun _ hr => Except.ok.inj hr ▸ ⟨rfl, rfl, rfl, rfl⟩⟩
  | none => exact ⟨.error _, rfl, rfl, nofun⟩

theorem execHexdec_respondsAlike {s t : State} (h : s.input = t.input) : RespondsAlike .hexdec execHexdec s t := by
  simp only [RespondsAlike, execHexdec, ← h]
  cases hexBytes s.input with
  | some bs => exact ⟨.ok _, rfl, rfl, fun _ hr => Except.ok.inj hr ▸ ⟨rfl, rfl, rfl, rfl⟩⟩
  | none => exact ⟨.error _, rfl, rfl, nofun⟩

/-- R94 with R91: the response is a function of what the command reads (R76), and on success assigns what it defines. -/
theorem exec_respondsAlike {i : Instr} {s t : State} (h : AgreeOnReads i s t) : RespondsAlike i (exec i) s t := by
  cases i with
  | hexenc => exact emit_respondsAlike (fun _ => ⟨rfl, rfl, rfl, rfl⟩) (congrArg hexText (h.input rfl))
  | hexdec => exact execHexdec_respondsAlike (h.input rfl)
  | enc64Be | enc64Le =>
    exact emit_respondsAlike (fun _ => ⟨rfl, rfl, rfl, rfl⟩) (congrArg (bytesInOrder _ 8) (h.x64 rfl))
  | enc32Be | enc32Le =>
    exact emit_respondsAlike (fun _ => ⟨rfl, rfl, rfl, rfl⟩) (congrArg (bytesInOrder _ 4) (h.x32 rfl))
  | dec64Be | dec64Le | dec32Be | dec32Le | b2addr | b2port | b2ep =>
    exact decodeExact_respondsAlike (fun _ => ⟨rfl, rfl, rfl, rfl⟩) (h.ilen rfl) (h.input rfl)
  | sdc32 => exact execSdc32_respondsAlike (h.x64 rfl)
  | parseaddr => exact execParseaddr_respondsAlike (h.input rfl)
  | fmtaddr => exact emit_respondsAlike (fun _ => ⟨rfl, rfl, rfl, rfl⟩) (congrArg addrText (h.x32 rfl))
  | addr2b => exact emit_respondsAlike (fun _ => ⟨rfl, rfl, rfl, rfl⟩) (congrArg (beBytes 4) (h.x32 rfl))
  | port2b =>
    exact withPort_respondsAlike (pack := fun _ => leBytes 2) (fun _ => ⟨rfl, rfl, rfl, rfl⟩) (h.xp rfl) rfl
  | ep2b =>
    exact withPort_respondsAlike (fun _ => ⟨rfl, rfl, rfl, rfl⟩) (h.xp rfl) (congrArg endpointBytes (h.x32 rfl))

/-- R91: one covering success response gives every two states the same defined fields, whatever their draws are. -/
theorem sameResponse_succeeded {i : Instr} {r : Response} (hr : r.Covers i) (s t : State) :
    SameResponse i (s.succeeded r) (t.succeeded r) := by
  refine ⟨rfl, fun _ hd => ?y64, fun _ hd => ?y32, fun _ hd => ?yp, fun _ hd => ?olen, fun _ hd k hk => ?obuf⟩
  case y64 =>
    obtain ⟨v, hv⟩ := Option.isSome_iff_exists.1 (hr.y64.trans hd)
    simp [hv]
  case y32 =>
    obtain ⟨v, hv⟩ := Option.isSome_iff_exists.1 (hr.y32.trans hd)
    simp [hv]
  case yp =>
    obtain ⟨v, hv⟩ := Option.isSome_iff_exists.1 (hr.yp.trans hd)
    simp [hv]
  case olen =>
    obtain ⟨bs, hbs⟩ := Option.isSome_iff_exists.1 (hr.out.trans hd)
    simp [hbs]
  case obuf =>
    obtain ⟨bs, hbs⟩ := Option.isSome_iff_exists.1 (hr.out.trans hd)
    have hlt : k < bs.length := by simpa [hbs] using hk
    rw [State.obufByte_succeeded_out s hbs hlt, State.obufByte_succeeded_out t hbs hlt]

/-- R92: an error response defines nothing but STATUS. -/
theorem sameResponse_failed (i : Instr) (e : ErrorKind) (s t : State) : SameResponse i (s.failed e) (t.failed e) :=
  ⟨rfl, nofun, nofun, nofun, nofun, nofun⟩

/-- Settles O13: both states get one response, which covers the command if it is a success. -/
theorem responseDependsOnlyOnReads : Obligations.ResponseDependsOnlyOnReads := by
  intro i s t s' t' h hs' ht'
  obtain ⟨o, hs, ht, hcovers⟩ := exec_respondsAlike h
  obtain rfl := Host.Outcome.next.inj (hs.symm.trans hs')
  obtain rfl := Host.Outcome.next.inj (ht.symm.trans ht')
  cases o with
  | ok r => exact sameResponse_succeeded (hcovers r rfl) s t
  | error e => exact sameResponse_failed i e s t

/-! ### The same word again -/

theorem SameRequest.agreeOnReads {s t : State} (h : SameRequest s t) (i : Instr) : AgreeOnReads i s t where
  x64 _ := h.x64.symm
  x32 _ := h.x32.symm
  xp _ := h.xp.symm
  ilen _ := h.ilen.symm
  ibuf _ k _ := (h.ibuf k).symm

/-- Settles O14: the first issue leaves the request group (R93), so the second reads what the first read (R94). -/
theorem reissueGivesTheSameResponse : Obligations.ReissueGivesTheSameResponse := by
  intro c s t u ht hu
  have hreq := commandsLeaveTheRequestGroup c s t ht
  cases hd : decode c with
  | ok i =>
    rw [issue_of_decode_ok hd] at ht hu
    have hsame := responseDependsOnlyOnReads i s t t u (hreq.agreeOnReads i) ht hu
    exact ⟨hsame.status.symm, fun j hj => Except.ok.inj hj ▸ hsame⟩
  | error e =>
    obtain rfl := Host.Outcome.next.inj ((issue_of_decode_error hd s).symm.trans ht)
    obtain rfl := Host.Outcome.next.inj ((issue_of_decode_error hd _).symm.trans hu)
    exact ⟨rfl, nofun⟩

end Sys2Proof.Machine
end

/-! ### Proofs of the statements of 41_hex.md -/

section
/-!
SUPPORT. HEXENC and HEXDEC as functions on sequences: on one digit `hexval` undoes `hexchar`, and `hexchar` undoes `hexval`
but for the case of the letter; a text decodes exactly when it has even length and holds only hex digits; and both laws
(R102, R103) are these facts pair by pair.
-/

namespace Sys2Proof.Machine

/-! ### One hex digit -/

theorem hexval_ne_none_iff (c : Byte) :
    hexval c ≠ none ↔ isDigit c = true ∨ isUpHex c = true ∨ isLoHex c = true := by
  simp [hexval_eq_none_iff, or_iff_not_imp_left]

theorem hexchar_ofNat_of_le {n : Nat} (h : n ≤ 9) : hexchar (BitVec.ofNat 4 n) = BitVec.ofNat 8 (0x30 + n) := by
  have hn : (BitVec.ofNat 4 n).toNat = n := (BitVec.toNat_ofNat n 4).trans (Nat.mod_eq_of_lt (by omega))
  simp [hexchar, hn, h]

theorem hexchar_ofNat_add_ten {n : Nat} (h : n ≤ 5) : hexchar (BitVec.ofNat 4 (n + 10)) = BitVec.ofNat 8 (0x41 + n) := by
  have hn : (BitVec.ofNat 4 (n + 10)).toNat = n + 10 :=
    (BitVec.toNat_ofNat (n + 10) 4).trans (Nat.mod_eq_of_lt (by omega))
  rw [hexchar, hn, if_neg (by omega)]
  rfl

/-- R100: HEXENC writes digits and uppercase letters only. -/
theorem isDigit_or_isUpHex_hexchar (n : BitVec 4) : isDigit (hexchar n) = true ∨ isUpHex (hexchar n) = true := by
  revert n
  decide

/-- R103: a lowercase letter `a` to `f` replaced by its uppercase letter, any other character kept. -/
def upperHex (c : Byte) : Byte := if isLoHex c then BitVec.ofNat 8 (c.toNat - 0x20) else c

theorem upperHex_of_isLoHex {c : Byte} (h : isLoHex c = true) : upperHex c = BitVec.ofNat 8 (c.toNat - 0x20) := if_pos h

theorem upperHex_eq_self_iff (c : Byte) : upperHex c = c ↔ isLoHex c = false := by
  refine ⟨fun h => Bool.eq_false_iff.2 fun hl => ?_, fun h => by simp [upperHex, h]⟩
  rw [upperHex_of_isLoHex hl] at h
  have hne := congrArg BitVec.toNat h
  rw [BitVec.toNat_ofNat] at hne
  rw [isLoHex_iff] at hl
  omega

theorem upperHex_of_toNat_lt {c : Byte} (h : c.toNat < 0x61) : upperHex c = c := by
  rw [upperHex_eq_self_iff, Bool.eq_false_iff, Ne, isLoHex_iff]
  omega

/-- R11, R12: the digit written for the value of a hex digit is that digit in uppercase. -/
theorem hexchar_of_hexval {c : Byte} {n : BitVec 4} (h : hexval c = some n) : hexchar n = upperHex c := by
  obtain hd | hu | hl := (hexval_ne_none_iff c).1 (by simp [h])
  · obtain rfl := Option.some.inj ((hexval_of_isDigit hd).symm.trans h)
    obtain ⟨hge, hle⟩ := (isDigit_iff c).1 hd
    simp [upperHex_of_toNat_lt (c := c) (by omega), hexchar_ofNat_of_le (n := c.toNat - 0x30) (by omega),
      Nat.add_sub_cancel' hge]
  · obtain rfl := Option.some.inj ((hexval_of_isUpHex hu).symm.trans h)
    obtain ⟨hge, hle⟩ := (isUpHex_iff c).1 hu
    simp [upperHex_of_toNat_lt (c := c) (by omega), hexchar_ofNat_add_ten (n := c.toNat - 0x41) (by omega),
      Nat.add_sub_cancel' hge]
  · obtain rfl := Option.some.inj ((hexval_of_isLoHex hl).symm.trans h)
    obtain ⟨hge, hle⟩ := (isLoHex_iff c).1 hl
    rw [upperHex_of_isLoHex hl, hexchar_ofNat_add_ten (by omega)]
    congr 1
    omega

/-- R100, R101: the two nibbles HEXENC writes are the byte HEXDEC makes of them. -/
theorem nibbles_append (b : Byte) : b.extractLsb' 4 4 ++ b.extractLsb' 0 4 = b := by
  rw [BitVec.extractLsb'_append_extractLsb'_eq_extractLsb' (by rfl)]
  simp

/-! ### Hex text -/

/-- R100: characters `2i` and `2i + 1` of the text are the digits of byte `i`. -/
theorem hexText_getElem? {bs : List Byte} {i : Nat} {b : Byte} (h : bs[i]? = some b) :
    (hexText bs)[2 * i]? = some (hexchar (b.extractLsb' 4 4)) ∧
      (hexText bs)[2 * i + 1]? = some (hexchar (b.extractLsb' 0 4)) := by
  induction bs generalizing i with
  | nil => simp at h
  | cons a bs ih =>
    cases i with
    | zero =>
      obtain rfl : a = b := by simpa using h
      exact ⟨rfl, rfl⟩
    | succ i => exact ih h

theorem mem_hexText {bs : List Byte} {c : Byte} (h : c ∈ hexText bs) : ∃ n, c = hexchar n := by
  induction bs with
  | nil => simp [hexText] at h
  | cons b bs ih =>
    simp only [hexText, List.mem_cons] at h
    obtain rfl | rfl | h := h
    · exact ⟨_, rfl⟩
    · exact ⟨_, rfl⟩
    · exact ih h

/-- R102 on sequences. -/
@[simp] theorem hexBytes_hexText (bs : List Byte) : hexBytes (hexText bs) = some bs := by
  induction bs with
  | nil => rfl
  | cons b bs ih =>
    exact hexBytes_cons_cons.2 ⟨_, _, bs, hexval_hexchar _, hexval_hexchar _, ih, by rw [nibbles_append]⟩

/-- R101: what HEXDEC accepts. -/
theorem exists_hexBytes_eq_some_iff (s : List Byte) :
    (∃ bs, hexBytes s = some bs) ↔ s.length % 2 = 0 ∧ ∀ c ∈ s, hexval c ≠ none := by
  induction s using List.twoStepInduction with
  | nil => simp [hexBytes]
  | singleton a => simp [hexBytes]
  | cons_cons a b rest ih _ =>
    have hparity : (a :: b :: rest).length % 2 = rest.length % 2 := Nat.add_mod_right rest.length 2
    rw [hparity, List.forall_mem_cons, List.forall_mem_cons]
    constructor
    · rintro ⟨bs, h⟩
      obtain ⟨hi, lo, tail, ha, hb, hr, -⟩ := hexBytes_cons_cons.1 h
      obtain ⟨heven, hrest⟩ := ih.1 ⟨tail, hr⟩
      exact ⟨heven, by simp [ha], by simp [hb], hrest⟩
    · rintro ⟨heven, ha, hb, hrest⟩
      obtain ⟨hi, ha⟩ := Option.ne_none_iff_exists'.1 ha
      obtain ⟨lo, hb⟩ := Option.ne_none_iff_exists'.1 hb
      obtain ⟨tail, hr⟩ := ih.2 ⟨heven, hrest⟩
      exact ⟨_, hexBytes_cons_cons.2 ⟨hi, lo, tail, ha, hb, hr, rfl⟩⟩

theorem hexBytes_eq_none_iff (s : List Byte) :
    hexBytes s = none ↔ s.length % 2 = 1 ∨ ∃ c ∈ s, hexval c = none := by
  rw [← not_iff_not, ← Ne, Option.ne_none_iff_exists', exists_hexBytes_eq_some_iff, not_or, Nat.mod_two_not_eq_one]
  push Not
  rfl

/-- R101: byte `j` is the value of characters `2j`, in the high nibble, and `2j + 1`. -/
theorem hexBytes_getElem? {s bs : List Byte} (h : hexBytes s = some bs) {j : Nat} {b : Byte} (hj : bs[j]? = some b) :
    ∃ hi lo, s[2 * j]?.bind hexval = some hi ∧ s[2 * j + 1]?.bind hexval = some lo ∧ b = hi ++ lo := by
  induction s using List.twoStepInduction generalizing bs j with
  | nil =>
    obtain rfl : [] = bs := Option.some.inj h
    simp at hj
  | singleton a => simp [hexBytes] at h
  | cons_cons a c rest ih _ =>
    obtain ⟨hi, lo, tail, ha, hc, hr, rfl⟩ := hexBytes_cons_cons.1 h
    cases j with
    | zero => exact ⟨hi, lo, ha, hc, (Option.some.inj hj).symm⟩
    | succ j => exact ih hr hj

/-- R103 on sequences: the text of the bytes of a text is that text in uppercase. -/
theorem hexText_of_hexBytes {s bs : List Byte} (h : hexBytes s = some bs) : hexText bs = s.map upperHex := by
  induction s using List.twoStepInduction generalizing bs with
  | nil =>
    obtain rfl : [] = bs := Option.some.inj h
    rfl
  | singleton a => simp [hexBytes] at h
  | cons_cons a b rest ih _ =>
    obtain ⟨hi, lo, tail, ha, hb, hr, rfl⟩ := hexBytes_cons_cons.1 h
    rw [hexText, BitVec.extractLsb'_append_eq_left, BitVec.extractLsb'_append_eq_right, hexchar_of_hexval ha,
      hexchar_of_hexval hb, ih hr]
    rfl

theorem map_upperHex_eq_self_iff (s : List Byte) : s.map upperHex = s ↔ ∀ c ∈ s, isLoHex c = false := by
  simpa [upperHex_eq_self_iff] using List.map_inj_left (l := s) (f := upperHex) (g := id)

/-! ### The buffers as sequences -/

theorem State.forall_mem_input {s : State} {p : Byte → Prop} :
    (∀ c ∈ s.input, p c) ↔ ∀ i < s.ilen, p (s.ibufByte i) := by
  simp [State.input]

theorem State.exists_mem_input {s : State} {p : Byte → Prop} :
    (∃ c ∈ s.input, p c) ↔ ∃ i < s.ilen, p (s.ibufByte i) := by simp [State.input]

theorem State.forall_mem_output {s : State} {p : Byte → Prop} :
    (∀ c ∈ s.output, p c) ↔ ∀ k < s.olen, p (s.obufByte k) := by simp [State.output]

/-- R91: the byte a success response gives at an index of the sequence produced. -/
theorem State.obufByte_succeeded_of_getElem? {r : Response} {bs : List Byte} (s : State) (h : r.out = some bs) {k : Nat}
    {b : Byte} (hk : bs[k]? = some b) : (s.succeeded r).obufByte k = b := by
  obtain ⟨hlt, rfl⟩ := List.getElem?_eq_some_iff.1 hk
  exact State.obufByte_succeeded_out s h hlt

/-- R80: after a copy the input sequence is the output sequence. -/
theorem Fed.input {t u : State} (h : Fed t u) : u.input = t.output := by
  rw [State.input, State.output, h.ilen]
  exact List.map_congr_left fun k hk => h.ibuf k (List.mem_range.1 hk)

/-! ### HEXENC and HEXDEC -/

/-- R100: HEXENC always ends in a success response with the text of the input. -/
theorem exec_hexenc (s : State) : exec .hexenc s = .next (s.succeeded { out := some (hexText s.input) }) := rfl

theorem exec_hexdec_of_some {s : State} {bs : List Byte} (h : hexBytes s.input = some bs) :
    exec .hexdec s = .next (s.succeeded { out := some bs }) := by
  show execHexdec s = _
  rw [execHexdec, h]
  rfl

theorem exec_hexdec_of_none {s : State} (h : hexBytes s.input = none) :
    exec .hexdec s = .next (s.failed .invalidFormat) := by
  show execHexdec s = _
  rw [execHexdec, h]
  rfl

/-- R101: HEXDEC ends OK exactly when its input decodes. -/
theorem status_hexdec_eq_ok_iff {s t : State} (h : exec .hexdec s = .next t) :
    t.status = .ok ↔ ∃ bs, hexBytes s.input = some bs := by
  cases hx : hexBytes s.input with
  | some bs =>
    obtain rfl := Host.Outcome.next.inj ((exec_hexdec_of_some hx).symm.trans h)
    simp
  | none =>
    obtain rfl := Host.Outcome.next.inj ((exec_hexdec_of_none hx).symm.trans h)
    simp

theorem output_hexdec {s t : State} {bs : List Byte} (h : exec .hexdec s = .next t) (hbs : hexBytes s.input = some bs) :
    t.output = bs := by
  obtain rfl := Host.Outcome.next.inj ((exec_hexdec_of_some hbs).symm.trans h)
  exact State.output_succeeded s rfl

theorem output_hexenc {s t : State} (h : exec .hexenc s = .next t) : t.output = hexText s.input := by
  obtain rfl := Host.Outcome.next.inj ((exec_hexenc s).symm.trans h)
  exact State.output_succeeded s rfl

/-- R100: the alphabet HEXENC produces. -/
theorem output_hexenc_isDigit_or_isUpHex {s t : State} (h : exec .hexenc s = .next t) :
    ∀ c ∈ t.output, isDigit c = true ∨ isUpHex c = true := by
  intro c hc
  rw [output_hexenc h] at hc
  obtain ⟨n, rfl⟩ := mem_hexText hc
  exact isDigit_or_isUpHex_hexchar n

theorem olen_hexenc {s t : State} (h : exec .hexenc s = .next t) : t.olen = 2 * s.ilen := by
  rw [← State.output_length, output_hexenc h, hexText_length, State.input_length]

/-- Settles O26: HEXENC succeeds with the text of its input, two digits to a byte. -/
theorem hexencEncodesEveryByte : Obligations.HexencEncodesEveryByte := by
  refine ⟨rfl, fun s => ⟨_, exec_hexenc s, rfl, olen_hexenc (exec_hexenc s), fun i hi => ?_, ?_, fun hfit => ?_⟩⟩
  · obtain ⟨hhigh, hlow⟩ := hexText_getElem? (s.input_getElem? hi)
    exact ⟨State.obufByte_succeeded_of_getElem? s rfl hhigh, State.obufByte_succeeded_of_getElem? s rfl hlow⟩
  · exact State.forall_mem_output.1 (output_hexenc_isDigit_or_isUpHex (exec_hexenc s))
  · rw [olen_hexenc (exec_hexenc s)]
    exact Nat.mul_le_mul_left 2 hfit

/-- Settles O27: the input decodes exactly when it has even length and only hex digits. -/
theorem hexdecAcceptsExactlyHexPairs : Obligations.HexdecAcceptsExactlyHexPairs := by
  refine ⟨rfl, fun s heven hdigits => ?_, fun s hbad => ?_⟩
  · obtain ⟨bs, hbs⟩ := (exists_hexBytes_eq_some_iff s.input).2
      ⟨by rwa [State.input_length], State.forall_mem_input.2 hdigits⟩
    have hlen := hexBytes_length hbs
    rw [State.input_length] at hlen
    refine ⟨_, exec_hexdec_of_some hbs, rfl, ?_, fun j hj => ?_⟩
    · show bs.length = s.ilen / 2
      omega
    · have hjlt : j < bs.length := by omega
      obtain ⟨hi, lo, hhigh, hlow, hb⟩ := hexBytes_getElem? hbs (List.getElem?_eq_getElem hjlt)
      rw [s.input_getElem? (by omega), Option.bind_some] at hhigh hlow
      exact ⟨hi, lo, hhigh, hlow, (State.obufByte_succeeded_out s rfl hjlt).trans hb⟩
  · refine ⟨_, exec_hexdec_of_none ((hexBytes_eq_none_iff s.input).2 ?_), rfl⟩
    rwa [State.input_length, State.exists_mem_input]

/-- Settles O29: the second command's input is the text of the first one's, and decodes to it. -/
theorem hexRoundTrip : Obligations.HexRoundTrip := by
  refine fun s _ => ⟨_, exec_hexenc s, rfl, fun u hfed => ?_⟩
  have hinput : hexBytes u.input = some s.input := by
    rw [hfed.input, output_hexenc (exec_hexenc s), hexBytes_hexText]
  exact ⟨_, exec_hexdec_of_some hinput, rfl, State.output_succeeded u rfl⟩

/-- Settles O30: what HEXENC writes, what HEXDEC accepts, and the text of the bytes of a text. -/
theorem hexNormalises : Obligations.HexNormalises := by
  refine ⟨fun s t h => ⟨?_, output_hexenc_isDigit_or_isUpHex h⟩, fun s t h => ?_, fun s t h hok u hfed => ?_⟩
  · rw [olen_hexenc h, Nat.mul_mod_right]
  · simp only [← hexval_ne_none_iff]
    exact (status_hexdec_eq_ok_iff h).trans (exists_hexBytes_eq_some_iff s.input)
  · obtain ⟨bs, hbs⟩ := (status_hexdec_eq_ok_iff h).1 hok
    have hv : (u.succeeded { out := some (hexText u.input) }).output = s.input.map upperHex := by
      rw [output_hexenc (exec_hexenc u), hfed.input, output_hexdec h hbs, hexText_of_hexBytes hbs]
    refine ⟨_, exec_hexenc u, rfl, hv, ?_⟩
    rw [hv]
    exact map_upperHex_eq_self_iff s.input

end Sys2Proof.Machine
end

/-! ### Proofs of the statements of 42_integer.md -/

section
/-!
SUPPORT. Both byte orders at once (R7 to R9): byte `i` of `n` has a lane of the register, which is all that tells the two
orders apart. ENC64 and ENC32 read the lanes, DEC64 and DEC32 fill them, and lanes that agree make equal registers.
-/

namespace Sys2Proof.Machine

/-! ### Byte lanes -/

/-- The lowest bit of byte `i` of `n`: the most significant byte comes first in big-endian order (R7), the least significant
in little-endian order (R8). -/
def laneStart (o : Order) (n i : Nat) : Nat :=
  match o with
  | .bigEndian => 8 * n - 8 - 8 * i
  | .littleEndian => 8 * i

/-- R116: byte `i` counted from the other end is in the lane the other order gives byte `i`. -/
theorem laneStart_bigEndian_reflect {n i : Nat} (h : i < n) :
    laneStart .bigEndian n (n - 1 - i) = laneStart .littleEndian n i := by
  simp only [laneStart]
  omega

theorem laneStart_littleEndian_reflect (n i : Nat) :
    laneStart .littleEndian n (n - 1 - i) = laneStart .bigEndian n i := by
  simp only [laneStart]
  omega

/-- R7, R8: byte `i` of a register in a named order is the register's lane. -/
theorem bytesInOrder_getElem {w n i : Nat} (o : Order) (v : BitVec w) (h : i < (bytesInOrder o n v).length) :
    (bytesInOrder o n v)[i] = v.extractLsb' (laneStart o n i) 8 := by
  cases o with
  | bigEndian =>
    have hstart : laneStart .bigEndian n i = 8 * (n - 1 - i) := by
      simp only [laneStart]
      omega
    rw [hstart]
    exact beBytes_getElem v h
  | littleEndian => exact leBytes_getElem v h

/-- R9: each byte of a sequence is in its own lane of the sequence's value. -/
theorem ofNat_valueInOrder_lane {w n i : Nat} (o : Order) {bs : List Byte} (hlen : bs.length = n) (hw : 8 * n ≤ w)
    (hi : i < bs.length) : (BitVec.ofNat w (valueInOrder o bs)).extractLsb' (laneStart o n i) 8 = bs[i] := by
  subst hlen
  refine BitVec.eq_of_toNat_eq ?_
  cases o with
  | bigEndian =>
    have hstart : laneStart .bigEndian bs.length i = 8 * (bs.length - 1 - i) := by
      simp only [laneStart]
      omega
    rw [hstart, ofNat_lane _ _ (by omega)]
    exact beValue_lane hi
  | littleEndian => exact (ofNat_lane _ i (by omega)).trans (leValue_lane hi)

/-- R9: the value of the `n` bytes of a register is the register cut to them. -/
theorem valueInOrder_bytesInOrder {w : Nat} (o : Order) (n : Nat) (v : BitVec w) :
    valueInOrder o (bytesInOrder o n v) = v.toNat % 256 ^ n := by
  cases o with
  | bigEndian => exact beValue_beBytes n v
  | littleEndian => exact leValue_leBytes n v

/-- The lanes of a register of `n` bytes are all of it. -/
theorem eq_of_lanes {n : Nat} (o : Order) {x y : BitVec (8 * n)}
    (h : ∀ i < n, x.extractLsb' (laneStart o n i) 8 = y.extractLsb' (laneStart o n i) 8) : x = y := by
  have hbytes : bytesInOrder o n x = bytesInOrder o n y := by
    refine List.ext_getElem (by simp) fun i hx hy => ?_
    rw [bytesInOrder_getElem, bytesInOrder_getElem]
    exact h i (by simpa using hx)
  have hcut (v : BitVec (8 * n)) : v.toNat % 256 ^ n = v.toNat :=
    Nat.mod_eq_of_lt (v.isLt.trans_eq (pow_mul 2 8 n))
  refine BitVec.eq_of_toNat_eq ?_
  rw [← hcut x, ← hcut y, ← valueInOrder_bytesInOrder o, ← valueInOrder_bytesInOrder o, hbytes]

/-! ### The four pairs of an encoder and a decoder -/

/-- Commands `enc` and `dec` carry a register of `n` bytes in order `o`: `enc` packs `operand` and never fails (R110, R112),
`dec` sets `result` from exactly `n` bytes and fails on any other length (R111, R113). -/
structure IntegerCodec (o : Order) (n : Nat) (enc dec : Instr) (operand result : State → BitVec (8 * n)) : Prop where
  encodes : ∀ s, exec enc s = .next (s.succeeded { out := some (bytesInOrder o n (operand s)) })
  decodes : ∀ s, s.ilen = n → ∃ t, exec dec s = .next t ∧ t.status = .ok ∧
    result t = BitVec.ofNat (8 * n) (valueInOrder o s.input)
  rejects : ∀ s, s.ilen ≠ n → exec dec s = .next (s.failed .lengthMismatch)

theorem integerCodec_64Be : IntegerCodec .bigEndian 8 .enc64Be .dec64Be State.x64 State.y64 :=
  ⟨fun _ => rfl, fun _ h => ⟨_, decodeExact_ok h, rfl, rfl⟩, fun _ => decodeExact_mismatch⟩

theorem integerCodec_64Le : IntegerCodec .littleEndian 8 .enc64Le .dec64Le State.x64 State.y64 :=
  ⟨fun _ => rfl, fun _ h => ⟨_, decodeExact_ok h, rfl, rfl⟩, fun _ => decodeExact_mismatch⟩

theorem integerCodec_32Be : IntegerCodec .bigEndian 4 .enc32Be .dec32Be State.x32 State.y32 :=
  ⟨fun _ => rfl, fun _ h => ⟨_, decodeExact_ok h, rfl, rfl⟩, fun _ => decodeExact_mismatch⟩

theorem integerCodec_32Le : IntegerCodec .littleEndian 4 .enc32Le .dec32Le State.x32 State.y32 :=
  ⟨fun _ => rfl, fun _ h => ⟨_, decodeExact_ok h, rfl, rfl⟩, fun _ => decodeExact_mismatch⟩

namespace IntegerCodec

variable {o p : Order} {n : Nat} {enc dec enc' dec' : Instr} {operand result operand' result' : State → BitVec (8 * n)}

/-- R110, R112: output byte `i` is lane `i` of the operand. -/
theorem encode_lanes (h : IntegerCodec o n enc dec operand result) (s : State) :
    ∃ t, exec enc s = .next t ∧ t.status = .ok ∧ t.olen = n ∧
      ∀ i < n, t.obufByte i = (operand s).extractLsb' (laneStart o n i) 8 := by
  refine ⟨_, h.encodes s, rfl, bytesInOrder_length o n (operand s), fun i hi => ?_⟩
  rw [State.obufByte_succeeded_out s rfl (by simpa using hi), bytesInOrder_getElem]

/-- R111, R113: input byte `i` is lane `i` of the result. -/
theorem decode_lanes (h : IntegerCodec o n enc dec operand result) (s : State) (hlen : s.ilen = n) :
    ∃ t, exec dec s = .next t ∧ t.status = .ok ∧
      ∀ i < n, (result t).extractLsb' (laneStart o n i) 8 = s.ibufByte i := by
  obtain ⟨t, ht, hok, hres⟩ := h.decodes s hlen
  refine ⟨t, ht, hok, fun i hi => ?_⟩
  have hin : s.input.length = n := by rw [State.input_length, hlen]
  rw [hres, ofNat_valueInOrder_lane o hin le_rfl (by rwa [hin])]
  simp [State.input]

/-- R111, R113: the one error of a decoder. -/
theorem decode_mismatch (h : IntegerCodec o n enc dec operand result) (s : State) (hlen : s.ilen ≠ n) :
    ∃ t, exec dec s = .next t ∧ t.status = .error .lengthMismatch := ⟨_, h.rejects s hlen, rfl⟩

/-- R115: a decoder of any order puts lane `i` of the encoder's operand in its own lane `i`. -/
theorem decode_encoded_lanes (h : IntegerCodec o n enc dec operand result)
    (h' : IntegerCodec p n enc' dec' operand' result') {s t u : State} (ht : exec enc s = .next t) (hfed : Fed t u) :
    ∃ v, exec dec' u = .next v ∧ v.status = .ok ∧
      ∀ i < n, (result' v).extractLsb' (laneStart p n i) 8 = (operand s).extractLsb' (laneStart o n i) 8 := by
  obtain ⟨t', ht', -, holen, hobuf⟩ := h.encode_lanes s
  obtain rfl := Host.Outcome.next.inj (ht.symm.trans ht')
  obtain ⟨v, hv, hok, hlanes⟩ := h'.decode_lanes u (hfed.ilen.trans holen)
  refine ⟨v, hv, hok, fun i hi => ?_⟩
  rw [hlanes i hi, hfed.ibuf i (holen ▸ hi), hobuf i hi]

/-- R115: the register comes back from its bytes. -/
theorem encodesThenDecodes (h : IntegerCodec o n enc dec operand result) :
    EncodesThenDecodes (fun _ => True) enc dec operand result := by
  refine fun s _ => ⟨_, h.encodes s, rfl, fun u hfed => ?_⟩
  obtain ⟨v, hv, hok, hlanes⟩ := h.decode_encoded_lanes h (h.encodes s) hfed
  exact ⟨v, hv, hok, eq_of_lanes o hlanes⟩

/-- R115: the bytes come back from the register. -/
theorem decodesThenEncodes (h : IntegerCodec o n enc dec operand result) :
    DecodesThenEncodes n dec enc result operand := by
  intro s hlen
  obtain ⟨t, ht, hok, hlanes⟩ := h.decode_lanes s hlen
  refine ⟨t, ht, hok, fun u hu => ?_⟩
  obtain ⟨v, hv, hvok, holen, hobuf⟩ := h.encode_lanes u
  exact ⟨v, hv, hvok, holen, fun k hk => by rw [hobuf k hk, hu, hlanes k hk]⟩

theorem output_encode (h : IntegerCodec o n enc dec operand result) {s t : State} (ht : exec enc s = .next t) :
    t.output = bytesInOrder o n (operand s) := by
  obtain rfl := Host.Outcome.next.inj ((h.encodes s).symm.trans ht)
  exact State.output_succeeded s rfl

/-- R116: the two orders give each other's output reversed. -/
theorem output_reverse (hbe : IntegerCodec .bigEndian n enc dec operand result)
    (hle : IntegerCodec .littleEndian n enc' dec' operand result') {s t u : State} (ht : exec enc s = .next t)
    (hu : exec enc' s = .next u) : u.output = t.output.reverse := by
  rw [hle.output_encode hu, hbe.output_encode ht]
  exact leBytes_eq_reverse n (operand s)

/-- R115, R116: what the big-endian decoder makes of little-endian bytes is the operand with its bytes reversed. -/
theorem decodeBigEndian_littleEndian_lanes (hle : IntegerCodec .littleEndian n enc dec operand result)
    (hbe : IntegerCodec .bigEndian n enc' dec' operand' result') {s t u : State} (ht : exec enc s = .next t)
    (hfed : Fed t u) :
    ∃ v, exec dec' u = .next v ∧ v.status = .ok ∧ ∀ i < n,
      (result' v).extractLsb' (laneStart .littleEndian n i) 8 =
        (operand s).extractLsb' (laneStart .bigEndian n i) 8 := by
  obtain ⟨v, hv, hok, hlanes⟩ := hle.decode_encoded_lanes hbe ht hfed
  refine ⟨v, hv, hok, fun i hi => ?_⟩
  rw [← laneStart_bigEndian_reflect hi, ← laneStart_littleEndian_reflect n i]
  exact hlanes (n - 1 - i) (by omega)

end IntegerCodec

/-- Settles O31: the encoder's lanes, in each order of eight bytes. -/
theorem enc64PacksEightBytes : Obligations.Enc64PacksEightBytes :=
  ⟨rfl, rfl, integerCodec_64Be.encode_lanes, integerCodec_64Le.encode_lanes⟩

/-- Settles O32: the decoder's lanes, in each order of eight bytes, and its one error. -/
theorem dec64UnpacksEightBytes : Obligations.Dec64UnpacksEightBytes := by
  refine ⟨rfl, rfl, integerCodec_64Be.decode_lanes, integerCodec_64Le.decode_lanes, fun s hlen => ?_⟩
  rw [List.forall_mem_cons, List.forall_mem_singleton]
  exact ⟨integerCodec_64Be.decode_mismatch s hlen, integerCodec_64Le.decode_mismatch s hlen⟩

/-- Settles O33: the encoder's lanes, in each order of four bytes. -/
theorem enc32PacksFourBytes : Obligations.Enc32PacksFourBytes :=
  ⟨rfl, rfl, integerCodec_32Be.encode_lanes, integerCodec_32Le.encode_lanes⟩

/-- Settles O34: the decoder's lanes, in each order of four bytes, and its one error. -/
theorem dec32UnpacksFourBytes : Obligations.Dec32UnpacksFourBytes := by
  refine ⟨rfl, rfl, integerCodec_32Be.decode_lanes, integerCodec_32Le.decode_lanes, fun s hlen => ?_⟩
  rw [List.forall_mem_cons, List.forall_mem_singleton]
  exact ⟨integerCodec_32Be.decode_mismatch s hlen, integerCodec_32Le.decode_mismatch s hlen⟩

/-- Settles O36: each of the four codecs is an inverse in both directions. -/
theorem integerRoundTrips : Obligations.IntegerRoundTrips :=
  ⟨integerCodec_64Be.encodesThenDecodes, integerCodec_64Le.encodesThenDecodes, integerCodec_32Be.encodesThenDecodes,
    integerCodec_32Le.encodesThenDecodes, integerCodec_64Be.decodesThenEncodes, integerCodec_64Le.decodesThenEncodes,
    integerCodec_32Be.decodesThenEncodes, integerCodec_32Le.decodesThenEncodes⟩

/-- Settles O37: the orders' bytes are each other's reversed, and so are the values read in the wrong order. -/
theorem ordersDifferByByteReversal : Obligations.OrdersDifferByByteReversal :=
  ⟨fun _ _ _ => integerCodec_64Be.output_reverse integerCodec_64Le,
    fun _ _ _ => integerCodec_32Be.output_reverse integerCodec_32Le,
    fun _ _ _ => integerCodec_64Be.decode_encoded_lanes integerCodec_64Le,
    fun _ _ _ => integerCodec_64Le.decodeBigEndian_littleEndian_lanes integerCodec_64Be,
    fun _ _ _ => integerCodec_32Be.decode_encoded_lanes integerCodec_32Le,
    fun _ _ _ => integerCodec_32Le.decodeBigEndian_littleEndian_lanes integerCodec_32Be⟩

end Sys2Proof.Machine
end

section
/-!
SUPPORT. SDC32 (R114): the spec's signed reading is Lean's, and a 64-bit value that 32 bits can hold has the value of its
low half.
-/

namespace Sys2Proof.Machine

/-- R15: the spec's two's-complement reading. -/
theorem sint64_eq_toInt (v : BitVec 64) : sint64 v = v.toInt := by
  rw [sint64, BitVec.toInt_eq_msb_cond, BitVec.msb_eq_getLsbD_last]
  norm_num

theorem fitsI32_iff (v : BitVec 64) : fitsI32 v = true ↔ -2147483648 ≤ v.toInt ∧ v.toInt ≤ 2147483647 := by
  simp [fitsI32, sint64_eq_toInt]

/-- R114: no value is wrapped. -/
theorem toInt_low32_of_fits {v : BitVec 64} (hlo : -2147483648 ≤ v.toInt) (hhi : v.toInt ≤ 2147483647) :
    (v.extractLsb' 0 32).toInt = v.toInt := by
  have hlow : (v.extractLsb' 0 32).toNat = v.toNat % 4294967296 := by
    rw [BitVec.extractLsb'_toNat, Nat.shiftRight_zero]
  have hv := v.isLt
  rw [BitVec.toInt_eq_toNat_cond] at hlo hhi
  rw [BitVec.toInt_eq_toNat_cond, BitVec.toInt_eq_toNat_cond, hlow]
  split at hlo <;> omega

theorem exec_sdc32_of_fits {s : State} (h : fitsI32 s.x64 = true) :
    exec .sdc32 s = .next (s.succeeded { y32 := some (s.x64.extractLsb' 0 32) }) := if_pos h

theorem exec_sdc32_of_not_fits {s : State} (h : ¬ fitsI32 s.x64 = true) :
    exec .sdc32 s = .next (s.failed .rangeError) := if_neg h

/-- Settles O35: the check is the signed range, and in it the low half keeps the value. -/
theorem sdc32NarrowsInRange : Obligations.Sdc32NarrowsInRange := by
  refine ⟨rfl, fun s hlo hhi => ?_, fun s hout => ⟨_, exec_sdc32_of_not_fits ?_, rfl⟩⟩
  · exact ⟨_, exec_sdc32_of_fits ((fitsI32_iff _).2 ⟨hlo, hhi⟩), rfl, rfl, toInt_low32_of_fits hlo hhi⟩
  · rw [fitsI32_iff]
    omega

end Sys2Proof.Machine
end

section
/-!
SUPPORT. Tokens (R13, R118): the value of a token digit by digit, how long the tokens of a string can be, and that PARSEADDR
accepts no string with a token above 255.
-/

namespace Sys2Proof.Machine

/-! ### The value of a token -/

/-- R13: one more digit at the end. -/
theorem decval_append_singleton (t : List Byte) (d : Byte) :
    decval (t ++ [d]) = 10 * decval t + (d.toNat - 0x30) := by
  induction t with
  | nil => simp [decval_cons]
  | cons b bs ih =>
    rw [List.cons_append, decval_cons, decval_cons, ih, List.length_append, List.length_singleton, Nat.pow_succ]
    ring

/-- R13: a leading zero adds nothing. -/
theorem decval_zero_cons (t : List Byte) : decval (0x30 :: t) = decval t := by simp [decval_cons]

/-- R118: nine digits denote at most 999999999. -/
theorem IsDecimalToken.decval_le_of_length_le {t : List Byte} (ht : IsDecimalToken t) (hlen : t.length ≤ 9) :
    decval t ≤ 999999999 := by
  obtain ⟨-, hdigits⟩ := ht
  have hlt := decval_lt_pow_length hdigits
  have hle : 10 ^ t.length ≤ 10 ^ 9 := Nat.pow_le_pow_right (by omega) hlen
  omega

theorem IsDecimalToken.length_pos {t : List Byte} (ht : IsDecimalToken t) : 0 < t.length := List.length_pos_iff.2 ht.1

/-- A DOT is no digit, so no token has one. -/
theorem IsDecimalToken.dot_notMem {t : List Byte} (ht : IsDecimalToken t) : dot ∉ t := fun h =>
  absurd (ht.2 dot h) (by decide)

/-! ### Strings of four tokens -/

section FourTokens

variable {s t0 t1 t2 t3 : List Byte}

/-- R118: three DOTs and one digit in each of the three other tokens leave at most nine characters of fifteen. -/
theorem token_length_le_nine (hlen : s.length ≤ 15) (hcut : s = t0 ++ dot :: (t1 ++ dot :: (t2 ++ dot :: t3)))
    (htok : ∀ t ∈ [t0, t1, t2, t3], IsDecimalToken t) : ∀ t ∈ [t0, t1, t2, t3], t.length ≤ 9 := by
  have h0 := (htok t0 (by simp)).length_pos
  have h1 := (htok t1 (by simp)).length_pos
  have h2 := (htok t2 (by simp)).length_pos
  have h3 := (htok t3 (by simp)).length_pos
  simp only [hcut, List.length_append, List.length_cons] at hlen
  simp only [List.forall_mem_cons, List.not_mem_nil, false_imp_iff, implies_true, and_true]
  omega

/-- R130 (b): a string of four tokens is cut into those. -/
theorem splitDots_of_tokens (hcut : s = t0 ++ dot :: (t1 ++ dot :: (t2 ++ dot :: t3)))
    (htok : ∀ t ∈ [t0, t1, t2, t3], IsDecimalToken t) : splitDots s = [t0, t1, t2, t3] := by
  have hdot : ∀ t ∈ [t0, t1, t2, t3], dot ∉ t := fun t ht => (htok t ht).dot_notMem
  rw [hcut, splitDots_append_dot (hdot t0 (by simp)), splitDots_append_dot (hdot t1 (by simp)),
    splitDots_append_dot (hdot t2 (by simp)), splitDots_no_dot (hdot t3 (by simp))]

end FourTokens

/-! ### What PARSEADDR accepts -/

/-- R130 (c) and (d). -/
theorem octetOf_eq_some_iff {t : List Byte} {v : Nat} :
    octetOf t = some v ↔ IsDecimalToken t ∧ decval t ≤ 255 ∧ decval t = v := by
  simp [octetOf, IsDecimalToken, and_assoc]

/-- R130: the tests (a) to (d), and the address of a string that passes them. -/
theorem parseAddr_eq_some_iff {s : List Byte} {a : BitVec 32} : parseAddr s = some a ↔
    7 ≤ s.length ∧ s.length ≤ 15 ∧ ∃ t0 t1 t2 t3 v0 v1 v2 v3, splitDots s = [t0, t1, t2, t3] ∧
      octetOf t0 = some v0 ∧ octetOf t1 = some v1 ∧ octetOf t2 = some v2 ∧ octetOf t3 = some v3 ∧
      composeAddr v0 v1 v2 v3 = a := by
  constructor
  · intro h
    simp only [parseAddr] at h
    split at h
    · simp at h
    · next hlen =>
      split at h
      · next t0 t1 t2 t3 hsplit =>
        split at h
        · next v0 v1 v2 v3 h0 h1 h2 h3 =>
          exact ⟨by omega, by omega, t0, t1, t2, t3, v0, v1, v2, v3, hsplit, h0, h1, h2, h3, Option.some.inj h⟩
        · simp at h
      · simp at h
  · rintro ⟨hlo, hhi, t0, t1, t2, t3, v0, v1, v2, v3, hsplit, h0, h1, h2, h3, rfl⟩
    simp [parseAddr, Nat.not_lt.2 hlo, Nat.not_lt.2 hhi, hsplit, h0, h1, h2, h3]

/-- R118: a token above 255 is never accepted, however many digits it has. -/
theorem parseAddr_eq_none_of_lt {s t0 t1 t2 t3 : List Byte} (hsplit : splitDots s = [t0, t1, t2, t3])
    (hbig : ∃ t ∈ [t0, t1, t2, t3], 255 < decval t) : parseAddr s = none := by
  rw [Option.eq_none_iff_forall_ne_some]
  intro a ha
  obtain ⟨-, -, u0, u1, u2, u3, v0, v1, v2, v3, hu, h0, h1, h2, h3, -⟩ := parseAddr_eq_some_iff.1 ha
  obtain ⟨rfl, rfl, rfl, rfl⟩ : t0 = u0 ∧ t1 = u1 ∧ t2 = u2 ∧ t3 = u3 := by simpa using hsplit.symm.trans hu
  have hle {t : List Byte} {v : Nat} (h : octetOf t = some v) : decval t ≤ 255 := (octetOf_eq_some_iff.1 h).2.1
  have hall : ∀ t ∈ [t0, t1, t2, t3], decval t ≤ 255 := by simp [hle h0, hle h1, hle h2, hle h3]
  obtain ⟨t, ht, hlt⟩ := hbig
  exact absurd (hall t ht) (Nat.not_le.2 hlt)

theorem exec_parseaddr_of_none {s : State} (h : parseAddr s.input = none) :
    exec .parseaddr s = .next (s.failed .invalidFormat) := by
  show execParseaddr s = _
  rw [execParseaddr, h]
  rfl

/-- Settles O39: the value digit by digit, the bound from the length of a token, and PARSEADDR's test on the value. -/
theorem tokenValueNeverOverflows : Obligations.TokenValueNeverOverflows := by
  refine ⟨fun d _ => by simp [decval_cons], fun t d _ _ => decval_append_singleton t d, fun t _ => decval_zero_cons t,
    fun s t0 t1 t2 t3 hlen hcut htok t ht => ?_, fun s t0 t1 t2 t3 _ _ hcut htok hbig => ?_⟩
  · have hnine := token_length_le_nine hlen hcut htok t ht
    exact ⟨hnine, (htok t ht).decval_le_of_length_le hnine⟩
  · exact ⟨_, exec_parseaddr_of_none (parseAddr_eq_none_of_lt (splitDots_of_tokens hcut htok) hbig), rfl⟩

end Sys2Proof.Machine
end

/-! ### Proofs of the statements of 43_address.md -/

section
/-!
SUPPORT. An address as four octets (R7, R130, R133): four bytes make a register, each in its lane, and the lanes of a
register are the four bytes that make it. ADDR2B and B2ADDR are ENC32.BE and DEC32.BE under other names (R135), so they are
one more pair of an encoder and a decoder.
-/

namespace Sys2Proof.Machine

/-- R133: the concatenation of four octets is the register that has each in its lane, the first in bits 31:24. -/
theorem eq_append_iff_lanes {a : BitVec 32} {b0 b1 b2 b3 : Byte} : a = b0 ++ b1 ++ b2 ++ b3 ↔
    a.extractLsb' 24 8 = b0 ∧ a.extractLsb' 16 8 = b1 ∧ a.extractLsb' 8 8 = b2 ∧ a.extractLsb' 0 8 = b3 := by
  have high {w k : Nat} (x : BitVec w) (b : Byte) : (x ++ b).extractLsb' (k + 8) 8 = x.extractLsb' k 8 :=
    BitVec.extractLsb'_append_eq_of_le (Nat.le_add_left 8 k)
  constructor
  · rintro rfl
    refine ⟨?_, ?_, ?_, BitVec.extractLsb'_append_eq_right⟩
    · exact ((high _ b3).trans (high _ b2)).trans BitVec.extractLsb'_append_eq_left
    · exact ((high _ b3).trans (high _ b2)).trans BitVec.extractLsb'_append_eq_right
    · exact (high _ b3).trans BitVec.extractLsb'_append_eq_right
  · rintro ⟨rfl, rfl, rfl, rfl⟩
    rw [BitVec.extractLsb'_append_extractLsb'_eq_extractLsb' (by rfl),
      BitVec.extractLsb'_append_extractLsb'_eq_extractLsb' (by rfl),
      BitVec.extractLsb'_append_extractLsb'_eq_extractLsb' (by rfl)]
    exact BitVec.extractLsb'_eq_self.symm

theorem exec_addr2b_eq_exec_enc32Be (s : State) : exec .addr2b s = exec .enc32Be s := rfl

theorem exec_b2addr_eq_exec_dec32Be (s : State) : exec .b2addr s = exec .dec32Be s := rfl

theorem addressCodec : IntegerCodec .bigEndian 4 .addr2b .b2addr State.x32 State.y32 where
  encodes s := (exec_addr2b_eq_exec_enc32Be s).trans (integerCodec_32Be.encodes s)
  decodes s := exec_b2addr_eq_exec_dec32Be s ▸ integerCodec_32Be.decodes s
  rejects s hlen := (exec_b2addr_eq_exec_dec32Be s).trans (integerCodec_32Be.rejects s hlen)

/-- Settles O42: the encoder's four lanes in big-endian order. -/
theorem addr2bPacksBigEndian : Obligations.Addr2bPacksBigEndian := by
  refine ⟨rfl, fun s => ?_⟩
  obtain ⟨t, ht, hok, holen, hlanes⟩ := addressCodec.encode_lanes s
  exact ⟨t, ht, hok, holen, hlanes 0 (by omega), hlanes 1 (by omega), hlanes 2 (by omega), hlanes 3 (by omega)⟩

/-- Settles O43: the register with the input bytes in its lanes is their concatenation. -/
theorem b2addrUnpacksBigEndian : Obligations.B2addrUnpacksBigEndian := by
  refine ⟨rfl, fun s hlen => ?_, addressCodec.decode_mismatch⟩
  obtain ⟨t, ht, hok, hlanes⟩ := addressCodec.decode_lanes s hlen
  exact ⟨t, ht, hok, eq_append_iff_lanes.2
    ⟨hlanes 0 (by omega), hlanes 1 (by omega), hlanes 2 (by omega), hlanes 3 (by omega)⟩⟩

/-- Settles O46: each command ends in the very state its integer counterpart ends in. -/
theorem addressCommandsMatchIntegerCommands : Obligations.AddressCommandsMatchIntegerCommands := by
  refine ⟨fun s t u ht hu => ?_, fun s t u ht hu => ?_⟩
  · rw [exec_addr2b_eq_exec_enc32Be, hu] at ht
    obtain rfl := Host.Outcome.next.inj ht
    exact ⟨rfl, rfl⟩
  · rw [exec_b2addr_eq_exec_dec32Be, hu] at ht
    obtain rfl := Host.Outcome.next.inj ht
    exact ⟨rfl, fun _ => rfl⟩

end Sys2Proof.Machine
end

section
/-!
SUPPORT. The canonical form of a token (R13, R14): among the tokens of one value it is the one without a leading zero, and
for an octet it is `dec`.
-/

namespace Sys2Proof.Machine

/-- R13: strings of digits of one length that denote the same number are equal. -/
theorem eq_of_decval_eq_of_length_eq {t u : List Byte} (ht : ∀ b ∈ t, isDigit b = true)
    (hu : ∀ b ∈ u, isDigit b = true) (hlen : t.length = u.length) (hval : decval t = decval u) : t = u := by
  induction t using List.reverseRecOn generalizing u with
  | nil => exact (List.length_eq_zero_iff.1 hlen.symm).symm
  | append_singleton ds d ih =>
    obtain rfl | ⟨es, e, rfl⟩ := u.eq_nil_or_concat'
    · simp at hlen
    · rw [List.forall_mem_append, List.forall_mem_singleton, isDigit_iff] at ht hu
      obtain ⟨hds, hd⟩ := ht
      obtain ⟨hes, he⟩ := hu
      rw [decval_append_singleton, decval_append_singleton] at hval
      have htail : ds = es := ih hds hes (by simpa using hlen) (by omega)
      have hlast : d = e := BitVec.eq_of_toNat_eq (by omega)
      rw [htail, hlast]

/-- R13: a first digit other than zero counts at least one unit of its place. -/
theorem IsDecimalToken.pow_le_decval {t : List Byte} (ht : IsDecimalToken t) (hz : t.head? ≠ some 0x30) :
    10 ^ (t.length - 1) ≤ decval t := by
  obtain ⟨hne, hdigits⟩ := ht
  obtain ⟨d, ds, rfl⟩ := List.exists_cons_of_ne_nil hne
  have hd := (isDigit_iff d).1 (hdigits d List.mem_cons_self)
  have hd0 : d.toNat ≠ 0x30 := fun h => hz (congrArg some (BitVec.eq_of_toNat_eq h))
  rw [decval_cons, List.length_cons, Nat.add_sub_cancel]
  exact (Nat.le_mul_of_pos_left _ (by omega)).trans (Nat.le_add_right _ _)

/-- A token without a leading zero is as short as any token of its value. -/
theorem IsDecimalToken.length_le_of_decval_eq {t u : List Byte} (ht : IsDecimalToken t) (hz : NoLeadingZero t)
    (hu : IsDecimalToken u) (hval : decval t = decval u) : t.length ≤ u.length := by
  obtain hone | hhead := hz
  · rw [hone]
    exact hu.length_pos
  · have hlt : 10 ^ (t.length - 1) < 10 ^ u.length :=
      (ht.pow_le_decval hhead).trans_lt (hval ▸ decval_lt_pow_length hu.2)
    have := (Nat.pow_lt_pow_iff_right (by omega)).1 hlt
    omega

theorem isDecimalToken_dec (o : Byte) : IsDecimalToken (dec o) :=
  ⟨List.length_pos_iff.1 (dec_length o).1, List.all_eq_true.1 (dec_all_isDigit o)⟩

/-- R14: the first of two or three digits is not zero. -/
theorem noLeadingZero_dec (o : Byte) : NoLeadingZero (dec o) := by
  have ho := o.isLt
  have hdigit {n : Nat} (hpos : 0 < n) (hle : n ≤ 9) : some (BitVec.ofNat 8 (0x30 + n)) ≠ some 0x30 := fun h => by
    have hn : 0x30 + n = 0x30 := (toNat_digit hle).symm.trans (congrArg BitVec.toNat (Option.some.inj h))
    omega
  obtain ⟨-, hd⟩ | ⟨hlo, hhi, hd⟩ | ⟨hlo, hd⟩ := dec_cases o <;> rw [hd]
  · exact .inl rfl
  · exact .inr (hdigit (by omega) (by omega))
  · exact .inr (hdigit (by omega) (by omega))

/-- The octet a token denotes (R130). -/
def tokenOctet (t : List Byte) : Byte := BitVec.ofNat 8 (decval t)

theorem toNat_tokenOctet {t : List Byte} (h : decval t ≤ 255) : (tokenOctet t).toNat = decval t :=
  Nat.mod_eq_of_lt (Nat.lt_succ_of_le h)

@[simp] theorem tokenOctet_dec (o : Byte) : tokenOctet (dec o) = o := by simp [tokenOctet]

/-- R14: a token is the text of its octet exactly when it has no leading zero. -/
theorem IsDecimalToken.dec_tokenOctet_eq_iff {t : List Byte} (ht : IsDecimalToken t) (hle : decval t ≤ 255) :
    dec (tokenOctet t) = t ↔ NoLeadingZero t := by
  refine ⟨fun h => h ▸ noLeadingZero_dec _, fun hz => ?_⟩
  have hdec := isDecimalToken_dec (tokenOctet t)
  have hval : decval t = decval (dec (tokenOctet t)) := by rw [decval_dec, toNat_tokenOctet hle]
  have hlen : (dec (tokenOctet t)).length = t.length :=
    (hdec.length_le_of_decval_eq (noLeadingZero_dec _) ht hval.symm).antisymm (ht.length_le_of_decval_eq hz hdec hval)
  exact eq_of_decval_eq_of_length_eq hdec.2 ht.2 hlen hval.symm

end Sys2Proof.Machine
end

section
/-!
SUPPORT. Dotted quads (R130, R131): PARSEADDR accepts them and nothing else, with the octets of their tokens as the
address, and FMTADDR's text is the dotted quad of the texts of the octets.
-/

namespace Sys2Proof.Machine

/-! ### Dotted quads and addresses -/

/-- R130: shifting four octets into place makes their concatenation. -/
theorem composeAddr_toNat (b0 b1 b2 b3 : Byte) :
    composeAddr b0.toNat b1.toNat b2.toNat b3.toNat = b0 ++ b1 ++ b2 ++ b3 := by
  refine BitVec.eq_of_toNat_eq ?_
  have happend : (b0 ++ b1 ++ b2 ++ b3).toNat =
      b0.toNat <<< 24 ||| b1.toNat <<< 16 ||| b2.toNat <<< 8 ||| b3.toNat := by
    simp only [BitVec.toNat_append, Nat.shiftLeft_or_distrib, ← Nat.shiftLeft_add]
  rw [composeAddr, BitVec.toNat_ofNat, ← happend]
  exact Nat.mod_eq_of_lt (b0 ++ b1 ++ b2 ++ b3).isLt

section Quads

variable {s s' t0 t1 t2 t3 u0 u1 u2 u3 : List Byte}

/-- R130 (b): a string is cut into tokens in one way, so two dotted quads are equal exactly when their tokens are. -/
theorem IsDottedQuad.eq_iff (h : IsDottedQuad s t0 t1 t2 t3) (h' : IsDottedQuad s' u0 u1 u2 u3) :
    s = s' ↔ t0 = u0 ∧ t1 = u1 ∧ t2 = u2 ∧ t3 = u3 := by
  constructor
  · rintro rfl
    simpa using (splitDots_of_tokens h.cut h.tokens).symm.trans (splitDots_of_tokens h'.cut h'.tokens)
  · rintro ⟨rfl, rfl, rfl, rfl⟩
    exact h.cut.trans h'.cut.symm

/-- R130: a dotted quad of the right length is accepted, and gives the octets of its tokens. -/
theorem IsDottedQuad.parseAddr_eq (h : IsDottedQuad s t0 t1 t2 t3) (hlo : 7 ≤ s.length) (hhi : s.length ≤ 15) :
    parseAddr s = some (tokenOctet t0 ++ tokenOctet t1 ++ tokenOctet t2 ++ tokenOctet t3) := by
  have hoctet : ∀ t ∈ [t0, t1, t2, t3], octetOf t = some (tokenOctet t).toNat := fun t ht =>
    octetOf_eq_some_iff.2 ⟨h.tokens t ht, h.octets t ht, (toNat_tokenOctet (h.octets t ht)).symm⟩
  exact parseAddr_eq_some_iff.2 ⟨hlo, hhi, t0, t1, t2, t3, _, _, _, _, splitDots_of_tokens h.cut h.tokens,
    hoctet t0 (by simp), hoctet t1 (by simp), hoctet t2 (by simp), hoctet t3 (by simp), composeAddr_toNat ..⟩

/-- R130: nothing but a dotted quad of 7 to 15 characters is accepted. -/
theorem exists_isDottedQuad_of_parseAddr_eq_some {a : BitVec 32} (h : parseAddr s = some a) :
    7 ≤ s.length ∧ s.length ≤ 15 ∧ ∃ t0 t1 t2 t3, IsDottedQuad s t0 t1 t2 t3 := by
  obtain ⟨hlo, hhi, t0, t1, t2, t3, _, _, _, _, hsplit, h0, h1, h2, h3, -⟩ := parseAddr_eq_some_iff.1 h
  obtain ⟨htok0, hle0, -⟩ := octetOf_eq_some_iff.1 h0
  obtain ⟨htok1, hle1, -⟩ := octetOf_eq_some_iff.1 h1
  obtain ⟨htok2, hle2, -⟩ := octetOf_eq_some_iff.1 h2
  obtain ⟨htok3, hle3, -⟩ := octetOf_eq_some_iff.1 h3
  have hjoin := splitDots_join s
  rw [hsplit] at hjoin
  have hcut : s = t0 ++ dot :: (t1 ++ dot :: (t2 ++ dot :: t3)) := by simpa [List.intercalate] using hjoin.symm
  exact ⟨hlo, hhi, t0, t1, t2, t3, hcut, by simp [htok0, htok1, htok2, htok3], by simp [hle0, hle1, hle2, hle3]⟩

end Quads

/-- R131: the canonical text is the dotted quad of the texts of the four octets. -/
theorem isDottedQuad_addrText {a : BitVec 32} {b0 b1 b2 b3 : Byte} (h : a = b0 ++ b1 ++ b2 ++ b3) :
    IsDottedQuad (addrText a) (dec b0) (dec b1) (dec b2) (dec b3) := by
  obtain ⟨h0, h1, h2, h3⟩ := eq_append_iff_lanes.1 h
  have hle (o : Byte) : o.toNat ≤ 255 := Nat.le_of_lt_succ o.isLt
  exact ⟨by simp [addrText, h0, h1, h2, h3], by simp [isDecimalToken_dec], by simp [hle]⟩

/-- R134: the canonical text of an address denotes it. -/
@[simp] theorem parseAddr_addrText (a : BitVec 32) : parseAddr (addrText a) = some a := by
  have hlanes := eq_append_iff_lanes.2 ⟨Eq.refl (a.extractLsb' 24 8), rfl, rfl, rfl⟩
  obtain ⟨hlo, hhi⟩ := addrText_length a
  rw [(isDottedQuad_addrText hlanes).parseAddr_eq hlo hhi]
  simp only [tokenOctet_dec]
  rw [← hlanes]

/-! ### PARSEADDR and FMTADDR -/

theorem exec_parseaddr_of_some {s : State} {a : BitVec 32} (h : parseAddr s.input = some a) :
    exec .parseaddr s = .next (s.succeeded { y32 := some a }) := by
  show execParseaddr s = _
  rw [execParseaddr, h]
  rfl

/-- R130: PARSEADDR ends OK exactly when its input denotes an address. -/
theorem status_parseaddr_eq_ok_iff {s t : State} (h : exec .parseaddr s = .next t) :
    t.status = .ok ↔ ∃ a, parseAddr s.input = some a := by
  cases ha : parseAddr s.input with
  | some a =>
    obtain rfl := Host.Outcome.next.inj ((exec_parseaddr_of_some ha).symm.trans h)
    simp
  | none =>
    obtain rfl := Host.Outcome.next.inj ((exec_parseaddr_of_none ha).symm.trans h)
    simp

/-- R130: the address PARSEADDR gives for an accepted string. -/
theorem y32_parseaddr {s t : State} {t0 t1 t2 t3 : List Byte} (h : exec .parseaddr s = .next t) (hok : t.status = .ok)
    (hquad : IsDottedQuad s.input t0 t1 t2 t3) :
    t.y32 = tokenOctet t0 ++ tokenOctet t1 ++ tokenOctet t2 ++ tokenOctet t3 := by
  obtain ⟨a, ha⟩ := (status_parseaddr_eq_ok_iff h).1 hok
  obtain ⟨hlo, hhi, -⟩ := exists_isDottedQuad_of_parseAddr_eq_some ha
  obtain rfl := Host.Outcome.next.inj ((exec_parseaddr_of_some (hquad.parseAddr_eq hlo hhi)).symm.trans h)
  rfl

/-- R131: FMTADDR always ends in a success response with the text of the address. -/
theorem exec_fmtaddr (s : State) : exec .fmtaddr s = .next (s.succeeded { out := some (addrText s.x32) }) := rfl

/-- Settles O38: PARSEADDR accepts exactly the dotted quads of the right length, and gives their octets. -/
theorem parseaddrAcceptsExactlyDottedQuads : Obligations.ParseaddrAcceptsExactlyDottedQuads := by
  refine ⟨rfl, fun s t0 t1 t2 t3 hlo hhi hquad => ?_, fun s hbad => ⟨_, exec_parseaddr_of_none ?_, rfl⟩⟩
  · rw [← State.input_length] at hlo hhi
    have hexec := exec_parseaddr_of_some (hquad.parseAddr_eq hlo hhi)
    obtain ⟨h0, h1, h2, h3⟩ := eq_append_iff_lanes.1 (y32_parseaddr hexec rfl hquad)
    have hval : ∀ t ∈ [t0, t1, t2, t3], (tokenOctet t).toNat = decval t := fun t ht =>
      toNat_tokenOctet (hquad.octets t ht)
    refine ⟨_, hexec, rfl, ?_, ?_, ?_, ?_⟩
    · rw [h0, hval t0 (by simp)]
    · rw [h1, hval t1 (by simp)]
    · rw [h2, hval t2 (by simp)]
    · rw [h3, hval t3 (by simp)]
  · rw [Option.eq_none_iff_forall_ne_some]
    intro a ha
    obtain ⟨hlo, hhi, t0, t1, t2, t3, hquad⟩ := exists_isDottedQuad_of_parseAddr_eq_some ha
    rw [State.input_length] at hlo hhi
    obtain h | h | h := hbad
    · omega
    · omega
    · exact h t0 t1 t2 t3 hquad

/-- Settles O40: FMTADDR's output is the text of the address, whose length is the sum of its parts. -/
theorem fmtaddrGivesCanonicalText : Obligations.FmtaddrGivesCanonicalText := by
  refine ⟨rfl, fun s => ⟨_, exec_fmtaddr s, rfl, State.output_succeeded s rfl, ?_, addrText_length s.x32⟩⟩
  show (addrText s.x32).length = _
  simp only [addrText, List.length_append, List.length_singleton]
  omega

/-- Settles O44: the bytes as one more integer codec, the text because it denotes its address. -/
theorem addressRoundTrips : Obligations.AddressRoundTrips := by
  refine ⟨addressCodec.encodesThenDecodes, addressCodec.decodesThenEncodes,
    fun s _ => ⟨_, exec_fmtaddr s, rfl, fun u hfed => ?_⟩⟩
  have hinput : parseAddr u.input = some s.x32 := by
    rw [hfed.input, State.output_succeeded s rfl, parseAddr_addrText]
  exact ⟨_, exec_parseaddr_of_some hinput, rfl, rfl⟩

/-- Settles O45: the canonical text has the texts of the tokens' octets as its tokens, and each is the token itself exactly
when that has no leading zero. -/
theorem addressTextNormalises : Obligations.AddressTextNormalises := by
  intro s t t0 t1 t2 t3 ht hok hquad u hu
  have htext := isDottedQuad_addrText (hu.trans (y32_parseaddr ht hok hquad))
  have hval : ∀ t ∈ [t0, t1, t2, t3], decval (dec (tokenOctet t)) = decval t := fun t hmem => by
    rw [decval_dec, toNat_tokenOctet (hquad.octets t hmem)]
  have hsame : ∀ t ∈ [t0, t1, t2, t3], (dec (tokenOctet t) = t ↔ NoLeadingZero t) := fun t hmem =>
    (hquad.tokens t hmem).dec_tokenOctet_eq_iff (hquad.octets t hmem)
  refine ⟨_, exec_fmtaddr u, rfl, ?_, ?_⟩
  · rw [State.output_succeeded u rfl]
    exact ⟨_, _, _, _, htext, by simp [noLeadingZero_dec], hval t0 (by simp), hval t1 (by simp), hval t2 (by simp),
      hval t3 (by simp)⟩
  · rw [State.output_succeeded u rfl, htext.eq_iff hquad, hsame t0 (by simp), hsame t1 (by simp), hsame t2 (by simp),
      hsame t3 (by simp)]
    simp

end Sys2Proof.Machine
end

/-! ### Proofs of the statements of 44_port.md -/

section
/-!
SUPPORT. The port in its two bytes (R150, R151): PORT2B reads the lanes of the low half of XP, which is all of XP when the
port is in range, and B2PORT fills the lanes of YP.
-/

namespace Sys2Proof.Machine

/-! ### The port operand -/

/-- C3: the unsigned range is the patterns whose upper half is zero. -/
theorem toNat_le_65535_iff_high16_eq_zero (p : BitVec 32) : p.toNat ≤ 65535 ↔ p.extractLsb' 16 16 = 0 := by
  have hp := p.isLt
  rw [← BitVec.toNat_inj, BitVec.extractLsb'_toNat, Nat.shiftRight_eq_div_pow]
  show _ ↔ _ = 0
  omega

/-- C3: the unsigned range is the signed one. -/
theorem toNat_le_65535_iff_toInt (p : BitVec 32) : p.toNat ≤ 65535 ↔ 0 ≤ p.toInt ∧ p.toInt ≤ 65535 := by
  have hp := p.isLt
  rw [BitVec.toInt_eq_toNat_cond]
  split <;> omega

/-- R150: a port in range is the low half of its register, zero-extended. -/
theorem setWidth_low16_of_toNat_le {p : BitVec 32} (h : p.toNat ≤ 65535) : (p.extractLsb' 0 16).setWidth 32 = p := by
  rw [← BitVec.setWidth_eq_extractLsb' (by omega)]
  exact BitVec.setWidth_setWidth_eq_self (BitVec.lt_def.2 (Nat.lt_succ_of_le h))

/-- R152: a zero-extended port is in range. -/
theorem toNat_setWidth_port_le (q : BitVec 16) : (q.setWidth 32).toNat ≤ 65535 := by
  rw [BitVec.toNat_setWidth_of_le (by omega)]
  exact Nat.le_of_lt_succ q.isLt

/-! ### PORT2B and B2PORT -/

/-- R151: byte `i` of two is lane `i` of their port. -/
theorem portOf_lane {bs : List Byte} {i : Nat} (hlen : bs.length = 2) (hi : i < bs.length) :
    (portOf bs).extractLsb' (8 * i) 8 = bs[i] := ofNat_valueInOrder_lane .littleEndian hlen le_rfl hi

/-- R150: on a port in range, output byte `i` is lane `i` of XP. -/
theorem exec_port2b_lanes (s : State) (h : s.xp.toNat ≤ 65535) :
    ∃ t, exec .port2b s = .next t ∧ t.status = .ok ∧ t.olen = 2 ∧
      ∀ i < 2, t.obufByte i = s.xp.extractLsb' (8 * i) 8 := by
  refine ⟨_, withPort_ok h, rfl, leBytes_length 2 _, fun i hi => ?_⟩
  rw [State.obufByte_succeeded_out s rfl (by simpa using hi), leBytes_getElem,
    BitVec.extractLsb'_extractLsb'_of_le (by omega)]

/-- R151: on two bytes, input byte `i` is lane `i` of YP. -/
theorem exec_b2port_lanes (s : State) (h : s.ilen = 2) :
    ∃ t, exec .b2port s = .next t ∧ t.status = .ok ∧ ∀ i < 2, t.yp.extractLsb' (8 * i) 8 = s.ibufByte i := by
  refine ⟨_, decodeExact_ok h, rfl, fun i hi => ?_⟩
  have hlen : s.input.length = 2 := by rw [State.input_length, h]
  refine (portOf_lane hlen (by rwa [hlen])).trans ?_
  simp [State.input]

/-- Settles O47: the two lanes of a port in range, the one error, and the readings of a pattern that agree. -/
theorem port2bPacksLittleEndian : Obligations.Port2bPacksLittleEndian := by
  refine ⟨rfl, fun s h => ?_, fun s h => ⟨_, withPort_range h, rfl⟩,
    fun p => ⟨toNat_le_65535_iff_high16_eq_zero p, toNat_le_65535_iff_toInt p⟩⟩
  obtain ⟨t, ht, hok, holen, hlanes⟩ := exec_port2b_lanes s h
  exact ⟨t, ht, hok, holen, hlanes 0 (by omega), hlanes 1 (by omega)⟩

/-- Settles O48: the two lanes of the port read, and the one error. -/
theorem b2portUnpacksLittleEndian : Obligations.B2portUnpacksLittleEndian := by
  refine ⟨rfl, fun s h => ?_, fun s h => ⟨_, decodeExact_mismatch h, rfl⟩⟩
  obtain ⟨t, ht, hok, hlanes⟩ := exec_b2port_lanes s h
  exact ⟨t, ht, hok, hlanes 0 (by omega), hlanes 1 (by omega)⟩

/-- Settles O49: YP takes the lanes PORT2B read from XP, so it is the low half of XP; and PORT2B reads from a zero-extended
YP the lanes B2PORT filled. -/
theorem portRoundTrips : Obligations.PortRoundTrips := by
  constructor
  · intro s h
    obtain ⟨t, ht, hok, holen, hout⟩ := exec_port2b_lanes s h
    refine ⟨t, ht, hok, fun u hfed => ?_⟩
    obtain ⟨v, hv, hvok, hin⟩ := exec_b2port_lanes u (hfed.ilen.trans holen)
    have hlow : v.yp = s.xp.extractLsb' 0 16 := eq_of_lanes (n := 2) .littleEndian fun i hi => by
      show v.yp.extractLsb' (8 * i) 8 = (s.xp.extractLsb' 0 16).extractLsb' (8 * i) 8
      rw [hin i hi, hfed.ibuf i (holen ▸ hi), hout i hi, BitVec.extractLsb'_extractLsb'_of_le (by omega)]
    refine ⟨v, hv, hvok, ?_⟩
    show v.yp.setWidth 32 = s.xp
    rw [hlow, setWidth_low16_of_toNat_le h]
  · intro s h
    obtain ⟨t, ht, hok, hin⟩ := exec_b2port_lanes s h
    refine ⟨t, ht, hok, fun u hu => ?_⟩
    obtain ⟨v, hv, hvok, holen, hout⟩ := exec_port2b_lanes u (hu ▸ toNat_setWidth_port_le t.yp)
    refine ⟨v, hv, hvok, holen, fun k hk => ?_⟩
    rw [hout k hk, hu, BitVec.extractLsb'_setWidth_of_le (by omega), hin k hk]

end Sys2Proof.Machine
end

/-! ### Proofs of the statements of 45_endpoint.md -/

section
/-!
SUPPORT. The endpoint record (R160, R161): six bytes cut at index 4. The first four are the big-endian lanes of the address,
as in ADDR2B and B2ADDR, and the last two are the little-endian lanes of the port, as in PORT2B and B2PORT.
-/

namespace Sys2Proof.Machine

/-! ### The record in its two parts -/

/-- R160: the first four bytes of the record are the address, big-endian. -/
theorem endpointBytes_getElem_address (a : BitVec 32) (p : BitVec 16) {i : Nat} (hi : i < 4)
    (h : i < (endpointBytes a p).length) : (endpointBytes a p)[i] = a.extractLsb' (laneStart .bigEndian 4 i) 8 := by
  have haddr : i < (beBytes 4 a).length := by simpa using hi
  exact (List.getElem_append_left haddr).trans (bytesInOrder_getElem .bigEndian a haddr)

/-- R160: the last two bytes of the record are the port, little-endian. -/
theorem endpointBytes_getElem_port (a : BitVec 32) (p : BitVec 16) {i : Nat} (h : 4 + i < (endpointBytes a p).length) :
    (endpointBytes a p)[4 + i] = p.extractLsb' (8 * i) 8 := by
  refine (List.getElem_append_right (by simp)).trans ?_
  simp [leBytes_getElem]

/-- R161, R162: a YP that has the lanes of a port in range is, zero-extended, that port. -/
theorem setWidth_eq_of_port_lanes {q : BitVec 16} {p : BitVec 32} (hp : p.toNat ≤ 65535)
    (h : ∀ i < 2, q.extractLsb' (8 * i) 8 = p.extractLsb' (8 * i) 8) : q.setWidth 32 = p := by
  have hlow : q = p.extractLsb' 0 16 := eq_of_lanes (n := 2) .littleEndian fun i hi => by
    show q.extractLsb' (8 * i) 8 = (p.extractLsb' 0 16).extractLsb' (8 * i) 8
    rw [h i hi, BitVec.extractLsb'_extractLsb'_of_le (by omega)]
  rw [hlow, setWidth_low16_of_toNat_le hp]

/-! ### EP2B and B2EP -/

/-- R160: on a port in range, the output bytes are the lanes of X32, then the low lanes of XP. -/
theorem exec_ep2b_lanes (s : State) (h : s.xp.toNat ≤ 65535) :
    ∃ t, exec .ep2b s = .next t ∧ t.status = .ok ∧ t.olen = 6 ∧
      (∀ i < 4, t.obufByte i = s.x32.extractLsb' (laneStart .bigEndian 4 i) 8) ∧
      ∀ i < 2, t.obufByte (4 + i) = s.xp.extractLsb' (8 * i) 8 := by
  refine ⟨_, withPort_ok h, rfl, endpointBytes_length _ _, fun i hi => ?_, fun i hi => ?_⟩
  · rw [State.obufByte_succeeded_out s rfl (by rw [endpointBytes_length]; omega), endpointBytes_getElem_address _ _ hi]
  · rw [State.obufByte_succeeded_out s rfl (by rw [endpointBytes_length]; omega), endpointBytes_getElem_port,
      BitVec.extractLsb'_extractLsb'_of_le (by omega)]

/-- R161: on six bytes, the first four are the lanes of Y32 and the last two those of YP. -/
theorem exec_b2ep_lanes (s : State) (h : s.ilen = 6) :
    ∃ t, exec .b2ep s = .next t ∧ t.status = .ok ∧
      (∀ i < 4, t.y32.extractLsb' (laneStart .bigEndian 4 i) 8 = s.ibufByte i) ∧
      ∀ i < 2, t.yp.extractLsb' (8 * i) 8 = s.ibufByte (4 + i) := by
  have haddr : (s.input.take 4).length = 4 := by simp [h]
  have hport : (s.input.drop 4).length = 2 := by simp [h]
  refine ⟨_, decodeExact_ok h, rfl, fun i hi => ?_, fun i hi => ?_⟩
  · refine (ofNat_valueInOrder_lane .bigEndian haddr le_rfl (by rwa [haddr])).trans ?_
    simp [State.input]
  · refine (portOf_lane hport (by rwa [hport])).trans ?_
    simp [State.input]

/-- Settles O50: the lanes of the address and of a port in range, and the one error. -/
theorem ep2bPacksTheRecord : Obligations.Ep2bPacksTheRecord := by
  refine ⟨rfl, fun s h => ?_, fun s h => ⟨_, withPort_range h, rfl⟩⟩
  obtain ⟨t, ht, hok, holen, haddr, hport⟩ := exec_ep2b_lanes s h
  exact ⟨t, ht, hok, holen, haddr 0 (by omega), haddr 1 (by omega), haddr 2 (by omega), haddr 3 (by omega),
    hport 0 (by omega), hport 1 (by omega)⟩

/-- Settles O51: the register with the first four bytes in its lanes is their concatenation, the last two bytes are the
lanes of the port, and any other length is the one error. -/
theorem b2epSplitsTheRecord : Obligations.B2epSplitsTheRecord := by
  refine ⟨rfl, fun s h => ?_, fun s h => ⟨_, decodeExact_mismatch h, rfl⟩⟩
  obtain ⟨t, ht, hok, haddr, hport⟩ := exec_b2ep_lanes s h
  exact ⟨t, ht, hok, eq_append_iff_lanes.2
    ⟨haddr 0 (by omega), haddr 1 (by omega), haddr 2 (by omega), haddr 3 (by omega)⟩,
    hport 0 (by omega), hport 1 (by omega)⟩

/-- Settles O52: B2EP fills from the record the lanes EP2B read, so Y32 is X32 and YP is the port; and EP2B reads back, in
each part of the record, the lanes B2EP filled. -/
theorem endpointRoundTrips : Obligations.EndpointRoundTrips := by
  constructor
  · intro s h
    obtain ⟨t, ht, hok, holen, haddr, hport⟩ := exec_ep2b_lanes s h
    refine ⟨t, ht, hok, fun u hfed => ?_⟩
    obtain ⟨v, hv, hvok, haddr', hport'⟩ := exec_b2ep_lanes u (hfed.ilen.trans holen)
    have hy32 : v.y32 = s.x32 := eq_of_lanes (n := 4) .bigEndian fun i hi => by
      rw [haddr' i hi, hfed.ibuf i (by omega), haddr i hi]
    have hyp : v.yp.setWidth 32 = s.xp := setWidth_eq_of_port_lanes h fun i hi => by
      rw [hport' i hi, hfed.ibuf (4 + i) (by omega), hport i hi]
    exact ⟨v, hv, hvok, Prod.ext hy32 hyp⟩
  · intro s h
    obtain ⟨t, ht, hok, haddr, hport⟩ := exec_b2ep_lanes s h
    refine ⟨t, ht, hok, fun u hu => ?_⟩
    obtain ⟨hx32, hxp⟩ : u.x32 = t.y32 ∧ u.xp = t.yp.setWidth 32 := Prod.mk.inj hu
    obtain ⟨v, hv, hvok, holen, haddr', hport'⟩ := exec_ep2b_lanes u (hxp ▸ toNat_setWidth_port_le t.yp)
    refine ⟨v, hv, hvok, holen, fun k hk => ?_⟩
    obtain hk4 | hk4 := Nat.lt_or_ge k 4
    · rw [haddr' k hk4, hx32, haddr k hk4]
    · obtain ⟨i, rfl⟩ := Nat.exists_eq_add_of_le hk4
      have hi : i < 2 := by omega
      rw [hport' i hi, hxp, BitVec.extractLsb'_setWidth_of_le (by omega), hport i hi]

end Sys2Proof.Machine
end

/-! ### Proofs of the statements of 60_exceptions.md -/

section
/-!
SUPPORT. The error matrix (R171), both ways. No error outside it is `exec_next_cases`. Each error in it is raised in one
and the same state: one byte of input is too short for every decoder of fixed width and for dotted-quad text and odd for
hex text, and no integer or port operand is in range.
-/

namespace Sys2Proof.Machine

/-- R171, no error outside the matrix: STATUS after a command is OK or the command's own error. -/
theorem errorOf_of_exec_error {i : Instr} {s t : State} {e : ErrorKind} (h : exec i s = .next t)
    (ht : t.status = .error e) : errorOf i = some e := by
  obtain ⟨r, -, rfl⟩ | ⟨e', he, rfl⟩ := exec_next_cases h
  · rw [State.succeeded_status] at ht
    cases ht
  · rw [State.failed_status] at ht
    cases ht
    exact he

/-- A state whose operands fail the check of every command that makes one. -/
structure State.Unfit (s : State) : Prop where
  ilen : s.ilen = 1
  x64 : ¬ fitsI32 s.x64 = true
  xp : 65535 < s.xp.toNat

/-- R171, every error in the matrix: on unfit operands each command that has an error raises it. -/
theorem State.Unfit.exec_eq {s : State} (h : s.Unfit) {i : Instr} {e : ErrorKind} (he : errorOf i = some e) :
    exec i s = .next (s.failed e) := by
  have hinput : s.input.length = 1 := s.input_length.trans h.ilen
  have mismatch {n : Nat} {f : List Byte → Response} (hn : 1 ≠ n) :
      decodeExact n f s = .next (s.failed .lengthMismatch) := decodeExact_mismatch (h.ilen.trans_ne hn)
  cases i with
  | hexenc | enc64Be | enc64Le | enc32Be | enc32Le | fmtaddr | addr2b => cases he
  | hexdec =>
    cases he
    exact exec_hexdec_of_none ((hexBytes_eq_none_iff _).2 (.inl (by rw [hinput])))
  | parseaddr =>
    cases he
    exact exec_parseaddr_of_none (by simp [parseAddr, hinput])
  | dec64Be | dec64Le | dec32Be | dec32Le | b2addr | b2port | b2ep =>
    cases he
    exact mismatch (by decide)
  | sdc32 =>
    cases he
    exact exec_sdc32_of_not_fits h.x64
  | port2b | ep2b =>
    cases he
    exact withPort_range h.xp

/-- The reset state with one byte of input, `2^31` in X64 and `2^16` in XP, each the least value above its range. -/
def unfitState : State := ((State.reset.setIlen 1).setX64 0x80000000).setXp 0x10000

theorem unfitState_unfit : unfitState.Unfit := ⟨rfl, by decide, by decide⟩

theorem unfitState_inv : unfitState.Inv :=
  (State.Inv.setIlen invariantHoldsAtReset (Nat.one_le_ofNat.trans Config.inCap_ge)).congr rfl rfl rfl rfl rfl rfl rfl

/-- Settles O10: a command ends with OK or its own error, and on the operands of `unfitState` with that error. -/
theorem errorMatrix : Obligations.ErrorMatrix :=
  ⟨fun _ _ _ _ => errorOf_of_exec_error,
    fun _ e he => ⟨unfitState, unfitState.failed e, unfitState_inv, unfitState_unfit.exec_eq he, rfl⟩⟩

end Sys2Proof.Machine
end

/-! ### Proofs of the statements of 70_reset_and_hazards.md -/

section
/-!
SUPPORT. The reset action (R200, R201) is the one ending of a step that answers IDLE: a command's response is OK or an
error, and no other action writes STATUS. The first command after it (R202) runs on operands that are all zero.
-/

namespace Sys2Proof.Machine

/-! ### The reset action -/

theorem step_reset {s : State} {rest : List HostAction} (hp : s.pending = .reset :: rest) :
    step s = .next (s.setPending rest).hostReset := step_of_pending_cons hp

/-- U3: every item of the response group that reset does not define is drawn anew. -/
theorem allUnspecified_hostReset (s : State) : AllUnspecified s.hostReset := ⟨rfl, rfl, rfl, rfl, fun _ => rfl⟩

/-- U3 with log 6: after reset no byte of IBUF is one that was there before. -/
@[simp] theorem State.ibufByte_hostReset (s : State) (k : Nat) :
    s.hostReset.ibufByte k = Config.freeIbuf (s.drawn + 1) k := rfl

/-- R91, R92: no response leaves STATUS at IDLE. -/
theorem State.respond_status_ne_idle (s : State) (o : Except ErrorKind Response) : (s.respond o).status ≠ .idle := by
  cases o <;> simp

/-- R200: an action other than reset does not bring STATUS back to IDLE. -/
theorem perform_status_ne_idle {a : HostAction} {s t : State} (hp : perform a s = .next t) (ha : a ≠ .reset)
    (hs : s.status ≠ .idle) : t.status ≠ .idle := by
  by_cases hcmd : ∃ c, a = .writeCmd c
  · obtain ⟨c, rfl⟩ := hcmd
    obtain ⟨o, rfl⟩ := issue_next_eq_respond (c := c) hp
    exact s.respond_status_ne_idle o
  · rwa [(perform_sameResponseGroup hp (not_exists.1 hcmd) ha).status]

/-- Settles O19: reset is `hostReset`, and a step to IDLE from another STATUS performed an action that can only be reset. -/
theorem resetActionAndIdle : Obligations.ResetActionAndIdle := by
  refine ⟨fun s rest hp => ⟨_, step_reset hp, rfl, rfl, rfl, rfl, rfl⟩, fun s t hstep hidle hs => ?_,
    rfl, rfl, rfl, rfl, rfl⟩
  cases hp : s.pending with
  | nil =>
    obtain rfl := Host.Outcome.next.inj ((step_of_pending_nil hp).symm.trans hstep)
    exact absurd hidle hs
  | cons a rest =>
    by_cases ha : a = .reset
    · exact ⟨rest, by rw [ha]⟩
    · exact absurd hidle (perform_status_ne_idle ((step_of_pending_cons hp).symm.trans hstep) ha hs)

/-- Settles O20: what reset leaves unspecified is of the new draw, and what is the host's own it does not touch. -/
theorem resetForgetsTheRest : Obligations.ResetForgetsTheRest := fun s rest hp =>
  ⟨_, step_reset hp, allUnspecified_hostReset _, rfl, (s.setPending rest).ibufByte_hostReset, rfl, rfl⟩

/-! ### Commands on the operands of reset -/

theorem State.input_eq_nil {s : State} (h : s.ilen = 0) : s.input = [] :=
  List.length_eq_zero_iff.1 (s.input_length.trans h)

/-- A command that answers with the sequence `bs` ends OK with `bs` in OBUF. -/
theorem output_of_exec_eq_succeeded {i : Instr} {s : State} {bs bs' : List Byte}
    (h : exec i s = .next (s.succeeded { out := some bs' })) (hbs : bs' = bs) :
    ∃ t, exec i s = .next t ∧ t.status = .ok ∧ t.output = bs :=
  ⟨_, h, rfl, (s.output_succeeded rfl).trans hbs⟩

/-- R61: no decoder of fixed width takes an empty input. -/
theorem exec_lengthMismatch_of_ilen_zero {i : Instr} {s : State} (h : s.ilen = 0)
    (he : errorOf i = some .lengthMismatch) : exec i s = .next (s.failed .lengthMismatch) := by
  have mismatch {n : Nat} {f : List Byte → Response} (hn : 0 ≠ n) :
      decodeExact n f s = .next (s.failed .lengthMismatch) := decodeExact_mismatch (h.trans_ne hn)
  cases i with
  | dec64Be | dec64Le | dec32Be | dec32Le | b2addr | b2port | b2ep => exact mismatch (by decide)
  | hexenc | hexdec | enc64Be | enc64Le | enc32Be | enc32Le | sdc32 | parseaddr | fmtaddr | addr2b | port2b | ep2b =>
    cases he

/-- Settles O21: the texts and bytes of zero, and what an empty input is to each command that reads one. -/
theorem firstCommandAfterReset : Obligations.FirstCommandAfterReset := by
  intro s hx64 hx32 hxp hilen
  have hin : s.input = [] := State.input_eq_nil hilen
  have hport : s.xp.toNat ≤ 65535 := by simp [hxp]
  have hdecoder : ∀ i ∈ [Instr.dec64Be, .dec64Le, .dec32Be, .dec32Le, .b2addr, .b2port, .b2ep],
      errorOf i = some .lengthMismatch := by decide
  refine ⟨List.forall_mem_cons.2 ⟨?hexenc, List.forall_mem_singleton.2 ?hexdec⟩,
    List.forall_mem_cons.2 ⟨?enc64Be, List.forall_mem_singleton.2 ?enc64Le⟩,
    List.forall_mem_cons.2 ⟨?enc32Be, List.forall_mem_cons.2 ⟨?enc32Le, List.forall_mem_singleton.2 ?addr2b⟩⟩,
    ?fmtaddr, ?port2b, ?ep2b, ?sdc32, fun i hi => ⟨_, exec_lengthMismatch_of_ilen_zero hilen (hdecoder i hi), rfl⟩,
    ?parseaddr, fun c e hc => ⟨_, issue_of_decode_error hc s, rfl⟩⟩
  case hexenc => exact output_of_exec_eq_succeeded (exec_hexenc s) (by rw [hin]; rfl)
  case hexdec => exact output_of_exec_eq_succeeded (exec_hexdec_of_some (by rw [hin]; rfl)) rfl
  case enc64Be => exact output_of_exec_eq_succeeded (integerCodec_64Be.encodes s) (by rw [hx64]; decide)
  case enc64Le => exact output_of_exec_eq_succeeded (integerCodec_64Le.encodes s) (by rw [hx64]; decide)
  case enc32Be => exact output_of_exec_eq_succeeded (integerCodec_32Be.encodes s) (by rw [hx32]; decide)
  case enc32Le => exact output_of_exec_eq_succeeded (integerCodec_32Le.encodes s) (by rw [hx32]; decide)
  case addr2b => exact output_of_exec_eq_succeeded (addressCodec.encodes s) (by rw [hx32]; decide)
  case fmtaddr => exact output_of_exec_eq_succeeded (exec_fmtaddr s) (by rw [hx32]; decide)
  case port2b => exact output_of_exec_eq_succeeded (withPort_ok hport) (by rw [hxp]; decide)
  case ep2b => exact output_of_exec_eq_succeeded (withPort_ok hport) (by rw [hx32, hxp]; decide)
  case sdc32 =>
    refine ⟨_, exec_sdc32_of_fits (by rw [hx64]; decide), rfl, ?_⟩
    show s.x64.extractLsb' 0 32 = 0
    rw [hx64]
    decide
  case parseaddr => exact ⟨_, exec_parseaddr_of_none (by rw [hin]; rfl), rfl⟩

end Sys2Proof.Machine
end
